-- ==== Sys2Proof/Word.lean ====
section
/-! DEFINITION. The byte, the machine's only word, and the two ways a register is named. -/

namespace Sys2Proof

/-- A byte (R5): a register, a memory cell, an operand byte, the opcode and the program counter are all one. -/
abbrev Byte := BitVec 8

/-- A register-index operand as it stands in the instruction: a whole byte, of which only 0 to 7 name a
register (R12, R68). -/
abbrev RegOperand := Byte

/-- The index of an existing register, 0 to 7 (R11). -/
abbrev RegIndex := Fin 8

/-- The operand byte that names register `r` (R68: the whole byte is the index). -/
def RegIndex.operand (r : RegIndex) : RegOperand := BitVec.ofNat 8 r.val

end Sys2Proof
end

