-- ==== Sys2Proof/Syntax.lean ====
section
/-! DEFINITION. The instructions (R70): one mnemonic and one constructor of Instr per row of the opcode table,
and the four formats (R67). -/

namespace Sys2Proof

/-- The 22 mnemonics of the dispatch table (R70), in the table's order. -/
inductive Mnemonic
  | hlt | ldi | prn | mul | push | pop | call | ret | cmp | jmp | jeq | jne
  | add | sub | div | mod | and | or | xor | not | shl | shr
  deriving DecidableEq, Repr

/-- Every mnemonic, in the table's order (R70). -/
def Mnemonic.all : List Mnemonic :=
  [.hlt, .ldi, .prn, .mul, .push, .pop, .call, .ret, .cmp, .jmp, .jeq, .jne] ++
  [.add, .sub, .div, .mod, .and, .or, .xor, .not, .shl, .shr]

/-- The four instruction formats (R67). -/
inductive Format
  /-- The opcode alone. -/
  | op0
  /-- The opcode and one register-index byte. -/
  | op1r
  /-- The opcode and two register-index bytes. -/
  | op2rr
  /-- The opcode, one register-index byte and one immediate byte. -/
  | op2ri
  deriving DecidableEq, Repr

/-- An instruction with its operand bytes: `a` the first byte after the opcode, `b` the second (R46, R62).
A register operand is kept as the byte it is; that it names a register is `Instr.wf`'s to say and `checkReg`'s
to check (R64; log 27). -/
inductive Instr
  /-- HLT: stop cleanly (R140). -/
  | hlt
  /-- LDI a, b: load immediate (R90). -/
  | ldi (a : RegOperand) (b : Byte)
  /-- PRN a: emit a register (R91). -/
  | prn (a : RegOperand)
  /-- MUL a, b (R102). -/
  | mul (a b : RegOperand)
  /-- PUSH a (R120). -/
  | push (a : RegOperand)
  /-- POP a (R121). -/
  | pop (a : RegOperand)
  /-- CALL a (R130). -/
  | call (a : RegOperand)
  /-- RET (R131). -/
  | ret
  /-- CMP a, b (R111). -/
  | cmp (a b : RegOperand)
  /-- JMP a (R132). -/
  | jmp (a : RegOperand)
  /-- JEQ a (R133). -/
  | jeq (a : RegOperand)
  /-- JNE a (R134). -/
  | jne (a : RegOperand)
  /-- ADD a, b (R100). -/
  | add (a b : RegOperand)
  /-- SUB a, b (R101). -/
  | sub (a b : RegOperand)
  /-- DIV a, b (R103). -/
  | div (a b : RegOperand)
  /-- MOD a, b (R104). -/
  | mod (a b : RegOperand)
  /-- AND a, b (R105). -/
  | and (a b : RegOperand)
  /-- OR a, b (R106). -/
  | or (a b : RegOperand)
  /-- XOR a, b (R107). -/
  | xor (a b : RegOperand)
  /-- NOT a (R108). -/
  | not (a : RegOperand)
  /-- SHL a, b (R109). -/
  | shl (a b : RegOperand)
  /-- SHR a, b (R110). -/
  | shr (a b : RegOperand)
  deriving DecidableEq, Repr

/-- The row of the opcode table an instruction belongs to. -/
def Instr.mnemonic : Instr → Mnemonic
  | .hlt => .hlt
  | .ldi _ _ => .ldi
  | .prn _ => .prn
  | .mul _ _ => .mul
  | .push _ => .push
  | .pop _ => .pop
  | .call _ => .call
  | .ret => .ret
  | .cmp _ _ => .cmp
  | .jmp _ => .jmp
  | .jeq _ => .jeq
  | .jne _ => .jne
  | .add _ _ => .add
  | .sub _ _ => .sub
  | .div _ _ => .div
  | .mod _ _ => .mod
  | .and _ _ => .and
  | .or _ _ => .or
  | .xor _ _ => .xor
  | .not _ => .not
  | .shl _ _ => .shl
  | .shr _ _ => .shr

/-- The operand bytes of an instruction, in the order they stand in memory (R46). -/
def Instr.operands : Instr → List Byte
  | .hlt => []
  | .ldi a b => [a, b]
  | .prn a => [a]
  | .mul a b => [a, b]
  | .push a => [a]
  | .pop a => [a]
  | .call a => [a]
  | .ret => []
  | .cmp a b => [a, b]
  | .jmp a => [a]
  | .jeq a => [a]
  | .jne a => [a]
  | .add a b => [a, b]
  | .sub a b => [a, b]
  | .div a b => [a, b]
  | .mod a b => [a, b]
  | .and a b => [a, b]
  | .or a b => [a, b]
  | .xor a b => [a, b]
  | .not a => [a]
  | .shl a b => [a, b]
  | .shr a b => [a, b]

/-- The operand bytes of an instruction that are register indices (R64); LDI's immediate is not one. -/
def Instr.regOperands : Instr → List RegOperand
  | .ldi a _ => [a]
  | .hlt => []
  | .prn a => [a]
  | .mul a b => [a, b]
  | .push a => [a]
  | .pop a => [a]
  | .call a => [a]
  | .ret => []
  | .cmp a b => [a, b]
  | .jmp a => [a]
  | .jeq a => [a]
  | .jne a => [a]
  | .add a b => [a, b]
  | .sub a b => [a, b]
  | .div a b => [a, b]
  | .mod a b => [a, b]
  | .and a b => [a, b]
  | .or a b => [a, b]
  | .xor a b => [a, b]
  | .not a => [a]
  | .shl a b => [a, b]
  | .shr a b => [a, b]

/-- The number of memory bytes an instruction occupies, 1 + arity (R67). -/
def Instr.length (i : Instr) : Nat := 1 + i.operands.length

end Sys2Proof
end

