-- ==== Sys2Proof/Config.lean ====
section
/-! DEFINITION. The parameters of the machine (R4): what is fixed for one machine and is not state (R10). The default
opcode bytes, `Config.standard`, stand in Decode.lean. -/

namespace Sys2Proof

/-- The two parameters the spec leaves open (R4): OPCODE_MAP and ALU_EXT. -/
structure Config where
  /-- OPCODE_MAP: the opcode byte of each mnemonic (R70, R71). -/
  opcodeMap : Mnemonic → Byte
  /-- ALU_EXT: whether the ten "ext" rows are in the dispatch table (R74). -/
  aluExt : Bool

/-- MEM_SIZE: the number of memory bytes (R4). -/
def Config.memSize : Nat := 256

/-- SP_INIT: the reset value of the stack pointer (R4, R30). -/
def Config.spInit : Byte := 0xF4

/-- PC_INIT: the reset value of the program counter. DESIGN CHOICE of the spec, D13 (log 13; unsafe). -/
def Config.pcInit : Byte := 0

/-- REG_INIT: the reset value of registers 0 to 6. PRESUMED by the spec, D13 (log 13; unsafe). -/
def Config.regInit : Byte := 0

/-- MAX_IMAGE: the longest admissible initial image. DESIGN CHOICE of the spec, D14 (log 14; safe). -/
def Config.maxImage : Nat := 256

end Sys2Proof
end

