-- ==== Sys2Proof/Decode.lean ====
section
/-! DEFINITION. The dispatch table (R70), the decoder and the encoder. Both are over any `Config`; the machine's step
uses `Config.standard`. -/

namespace Sys2Proof

/-- The format of each mnemonic (R67, R70). The ten "ext" rows: DESIGN CHOICE of the spec, D3 (log 3; unsafe). -/
def Mnemonic.format : Mnemonic → Format
  | .hlt => .op0
  | .ret => .op0
  | .ldi => .op2ri
  | .prn => .op1r
  | .push => .op1r
  | .pop => .op1r
  | .call => .op1r
  | .jmp => .op1r
  | .jeq => .op1r
  | .jne => .op1r
  | .not => .op1r
  | .mul => .op2rr
  | .cmp => .op2rr
  | .add => .op2rr
  | .sub => .op2rr
  | .div => .op2rr
  | .mod => .op2rr
  | .and => .op2rr
  | .or => .op2rr
  | .xor => .op2rr
  | .shl => .op2rr
  | .shr => .op2rr

/-- The number of operand bytes of a format (R67). -/
def Format.arity : Format → Nat
  | .op0 => 0
  | .op1r => 1
  | .op2rr => 2
  | .op2ri => 2

/-- The arity of a mnemonic, a property of the table's row and not of the opcode's bits (R69). -/
def Mnemonic.arity (m : Mnemonic) : Nat := m.format.arity

/-- Whether a row is marked "ext" in R70: present only when ALU_EXT is true (R74). -/
def Mnemonic.isExt : Mnemonic → Bool
  | .add => true
  | .sub => true
  | .div => true
  | .mod => true
  | .and => true
  | .or => true
  | .xor => true
  | .not => true
  | .shl => true
  | .shr => true
  | .hlt => false
  | .ldi => false
  | .prn => false
  | .mul => false
  | .push => false
  | .pop => false
  | .call => false
  | .ret => false
  | .cmp => false
  | .jmp => false
  | .jeq => false
  | .jne => false

/-- The default of OPCODE_MAP (R70). PRESUMED by the spec, D1: the values are general knowledge (log 1; unsafe). -/
def standardOpcode : Mnemonic → Byte
  | .hlt => 0x01
  | .ldi => 0x82
  | .prn => 0x47
  | .mul => 0xA2
  | .push => 0x45
  | .pop => 0x46
  | .call => 0x50
  | .ret => 0x11
  | .cmp => 0xA7
  | .jmp => 0x54
  | .jeq => 0x55
  | .jne => 0x56
  | .add => 0xA0
  | .sub => 0xA1
  | .div => 0xA3
  | .mod => 0xA4
  | .and => 0xA8
  | .or => 0xAA
  | .xor => 0xAB
  | .not => 0x69
  | .shl => 0xAC
  | .shr => 0xAD

/-- The defaults of R4: the opcode bytes of R70 and ALU_EXT = true (D2; log 2; unsafe). -/
def Config.standard : Config := { opcodeMap := standardOpcode, aluExt := true }

/-- Whether a mnemonic's row is in the dispatch table (R70, R74). -/
def Config.inTable (c : Config) (m : Mnemonic) : Bool := c.aluExt || !m.isExt

/-- What R71 requires of an opcode map: no two mnemonics of the table share a byte. -/
def Config.Valid (c : Config) : Prop :=
  ∀ m n : Mnemonic, c.inTable m = true → c.inTable n = true → c.opcodeMap m = c.opcodeMap n → m = n

/-- The dispatch table's lookup (R63): the whole opcode byte is the key, and a byte that is no key gives `none`. -/
def lookup (c : Config) (op : Byte) : Option Mnemonic :=
  Mnemonic.all.find? (fun m => c.inTable m && c.opcodeMap m == op)

/-- The instruction a row makes of its operand bytes (R67); bytes above the row's arity are not looked at. -/
def Mnemonic.assemble (a b : Byte) : Mnemonic → Instr
  | .hlt => .hlt
  | .ldi => .ldi a b
  | .prn => .prn a
  | .mul => .mul a b
  | .push => .push a
  | .pop => .pop a
  | .call => .call a
  | .ret => .ret
  | .cmp => .cmp a b
  | .jmp => .jmp a
  | .jeq => .jeq a
  | .jne => .jne a
  | .add => .add a b
  | .sub => .sub a b
  | .div => .div a b
  | .mod => .mod a b
  | .and => .and a b
  | .or => .or a b
  | .xor => .xor a b
  | .not => .not a
  | .shl => .shl a b
  | .shr => .shr a b

/-- Why bytes are not an instruction. -/
inductive DecodeReject
  /-- There is no byte at all. No cycle meets it: the opcode fetch is always in range (R61). -/
  | noOpcode
  /-- The opcode byte is no key of the dispatch table (R63, R72). -/
  | unknownOpcode (op : Byte)
  /-- The bytes end before the operands the row's arity asks for (R62). -/
  | operandMissing (m : Mnemonic)
  deriving DecidableEq, Repr

/-- The decoder (R60, R62, R63): total on any bytes, the lowest address first. It looks the whole opcode byte up, then
takes exactly the operand bytes of the row's arity. -/
def decode (c : Config) : List Byte → Except DecodeReject Instr
  | [] => .error .noOpcode
  | op :: rest =>
    match lookup c op with
    | none => .error (.unknownOpcode op)
    | some m =>
      if rest.length < m.arity then .error (.operandMissing m)
      else .ok (m.assemble (rest.getD 0 0) (rest.getD 1 0))

/-- The encoder (R67): the opcode byte, then the operand bytes, lowest address first. -/
def encode (c : Config) (i : Instr) : List Byte := c.opcodeMap i.mnemonic :: i.operands

/-- The bytes of a table word, lowest address first: bit 0 of `w` is bit 0 of the opcode byte, and everything above
`nbits` is zero (the opcode table's numbering; log 24). -/
def tableBytes (nbits w : Nat) : List Byte :=
  let v := w % 2 ^ nbits
  [BitVec.ofNat 8 v, BitVec.ofNat 8 (v / 256), BitVec.ofNat 8 (v / 65536)]

/-- The instruction the decoder reads from a table word, `none` where it refuses. -/
def decodeTableWord (nbits w : Nat) : Option Instr :=
  match decode Config.standard (tableBytes nbits w) with
  | .ok i => some i
  | .error _ => none

end Sys2Proof
end

