-- ==== Sys2Proof/Machine/State.lean ====
section
/-! DEFINITION. The architectural state (R10), its reset value (R30), and the reasons a model step could stop. -/

namespace Sys2Proof.Machine

/-- The comparison flag FL (R18). Its bits are not observable, so it is an enumeration (D16; log 16). -/
inductive Flag
  /-- No CMP has run since reset. -/
  | unset
  | equal
  | greater
  | less
  deriving DecidableEq, Repr

/-- The error kind held in ERR (R10, R151). DESIGN CHOICE of the spec, D12: the latch (log 12). -/
inductive ErrKind
  /-- No fatal error; also the value after a halt by HLT. -/
  | none
  /-- The byte at `pc` is no key of the dispatch table (R154). -/
  | decodeError
  /-- A memory index outside 0 to 255 would be used (R155). -/
  | outOfBounds
  /-- A register-index operand byte is outside 0 to 7 (R157). -/
  | invalidRegister
  /-- The divisor register of DIV or MOD holds 0 (R158). -/
  | divisionByZero
  /-- Kept because the spec lists it; nothing raises it (R115, R159; log 30). -/
  | unsupportedOperation
  deriving DecidableEq, Repr

/-- The numeric codes of R151, for an implementation that holds ERR in bits. DESIGN CHOICE of the spec, D12. -/
def ErrKind.code : ErrKind → Nat
  | .none => 0
  | .decodeError => 1
  | .outOfBounds => 2
  | .invalidRegister => 3
  | .divisionByZero => 4
  | .unsupportedOperation => 5

/-- MEM as the cells that differ from zero, in the canonical form `Memory.wf`. An unlisted address reads 0, the value
the spec gives unwritten memory: "zero-initialized" (R30; log 28). -/
abbrev Memory := List Host.Cell

/-- The complete architectural state (R10). -/
structure State where
  /-- MEM: 256 byte cells (R24). -/
  mem : Memory
  /-- x[0] to x[7]; x[7] is the stack pointer (R11, R14; log 4). -/
  x : Vector Byte 8
  /-- The program counter (R15). -/
  pc : Byte
  /-- FL (R18). -/
  fl : Flag
  /-- RUNNING (R20). -/
  running : Bool
  /-- ERR (R21). -/
  err : ErrKind
  /-- ERRPC (R21). -/
  errpc : Byte
  /-- OUT: every byte PRN has emitted, the oldest first (R27). -/
  out : List Byte
  deriving DecidableEq, Repr

/-- Reasons a step stops with a fault. There are none: every fatal error the spec names is a next state, in which the
machine is halted with its latch written (R152; log 26). -/
inductive Fault
  deriving DecidableEq, Repr

/-- Reasons the model refuses. -/
inductive Refusal
  /-- An instruction with no meaning yet, raised by an arm of `exec`. Safe. No arm raises it in this model. -/
  | notModelled (mnemonic : String)
  /-- An image of more than 256 bytes, raised by `construct` and by no step. Safe: the spec refuses it too
  (R182; DESIGN CHOICE of the spec, D14; log 14). -/
  | imageTooLong (bytes : Nat)
  deriving DecidableEq, Repr

/-- The machine right after reset with the empty image (R30, R180). `pc` and registers 0 to 6: D13 (log 13; unsafe). -/
def State.reset : State where
  mem := []
  x := #v[Config.regInit, Config.regInit, Config.regInit, Config.regInit, Config.regInit, Config.regInit,
    Config.regInit, Config.spInit]
  pc := Config.pcInit
  fl := .unset
  running := true
  err := .none
  errpc := 0
  out := []

end Sys2Proof.Machine
end

