-- ==== Sys2Proof/Machine/Flags.lean ====
section
/-! DEFINITION. The comparison flag: the one computation that writes it and the one test that reads it (R19). -/

namespace Sys2Proof.Machine

/-- The outcome of comparing `x` to `y` as unsigned bytes (R111). `greater` means the first operand is the greater:
DESIGN CHOICE of the spec, D18 (log 18). -/
def compareFlag (x y : Byte) : Flag :=
  if x = y then .equal
  else if y.toNat < x.toNat then .greater
  else .less

/-- `FL = Equal`, the only test any instruction makes of the flag (R19). -/
def Flag.isEqual (f : Flag) : Bool := decide (f = .equal)

end Sys2Proof.Machine
end

