-- ==== Sys2Proof/Machine/Ops.lean ====
section
/-! DEFINITION. The named operations over memory, registers, stack and program counter, and the entry into Halted on a
fatal error. -/

namespace Sys2Proof.Machine

/-! ### Memory as data -/

/-- The canonical form of memory: addresses strictly rising and below 256, and no listed byte equal to the 0 an
unlisted address reads as (log 28). -/
abbrev Memory.wf (m : Memory) : Prop :=
  m.Pairwise (fun c d => c.1 < d.1) ∧ ∀ c ∈ m, c.1 < Config.memSize ∧ c.2 ≠ 0

/-- What an unlisted address reads as: memory is "zero-initialized" (R30). -/
def Memory.unlisted : Byte := 0

/-- The byte at an address. -/
def Memory.read : Memory → Nat → Byte
  | [], _ => Memory.unlisted
  | c :: m, a => if c.1 = a then c.2 else Memory.read m a

/-- A cell in front of a memory, or nothing where the cell holds what an unlisted address reads as. -/
def Memory.consCell (a : Nat) (v : Byte) (m : Memory) : Memory :=
  if v = Memory.unlisted then m else (a, v) :: m

/-- Memory with one byte written; it keeps the canonical form. -/
def Memory.write : Memory → Nat → Byte → Memory
  | [], a, v => Memory.consCell a v []
  | c :: m, a, v =>
    if a < c.1 then Memory.consCell a v (c :: m)
    else if a = c.1 then Memory.consCell a v m
    else c :: Memory.write m a v

/-! ### Fatal errors -/

/-- A fatal error with the information that describes it (R6, R151); only the kind is latched. -/
inductive Raise
  | decodeError (op : Byte)
  | outOfBounds (index : Int)
  | invalidRegister (operand : Byte)
  | divisionByZero
  | unsupportedOperation
  deriving DecidableEq, Repr

/-- The kind a fatal error latches into ERR (R151). -/
def Raise.kind : Raise → ErrKind
  | .decodeError _ => .decodeError
  | .outOfBounds _ => .outOfBounds
  | .invalidRegister _ => .invalidRegister
  | .divisionByZero => .divisionByZero
  | .unsupportedOperation => .unsupportedOperation

/-- Entry into Halted on a fatal error (R152), from the state `s` at the start of the failing cycle: RUNNING is
cleared and the latch written, and `pc`, registers, memory, FL and OUT stay. This is the machine's only exception
entry. There is no return beside it: nothing resumes execution (R161). -/
def enterFatal (e : Raise) (s : State) : State :=
  { s with running := false, err := e.kind, errpc := s.pc }

/-- The end of a cycle that began in `s` (R7, R153): the handler's state where it completed; where it raised, the
handler's changes are discarded and the machine halts. -/
def complete (s : State) (r : Except Raise State) : Host.Outcome State Fault Refusal :=
  match r with
  | .ok t => .next t
  | .error e => .next (enterFatal e s)

/-! ### Memory accesses -/

/-- Whether an integer address is one of the 256 (R40). -/
abbrev inRange (addr : Int) : Prop := 0 ≤ addr ∧ addr ≤ 255

/-- `MemRead(addr, 1)` (R40). -/
def memRead (addr : Int) (s : State) : Except Raise Byte :=
  if inRange addr then .ok (s.mem.read addr.toNat) else .error (.outOfBounds addr)

/-- State with its memory replaced. -/
def State.setMem (m : Memory) (s : State) : State := { s with mem := m }

/-- `MemWrite(addr, 1, v)` (R41). -/
def memWrite (addr : Int) (v : Byte) (s : State) : Except Raise State :=
  if inRange addr then .ok (s.setMem (s.mem.write addr.toNat v)) else .error (.outOfBounds addr)

/-! ### Registers, flag, output, program counter -/

/-- `x[i]` (R11). -/
def State.reg (i : RegIndex) (s : State) : Byte := s.x[i]

/-- `x[i] <- v` (R11). -/
def State.setReg (i : RegIndex) (v : Byte) (s : State) : State := { s with x := s.x.set i v }

/-- The index of the stack pointer, SP_REG (R4, R14). -/
def spReg : RegIndex := 7

/-- `SP`, another name of `x[7]` (R14). -/
def State.sp (s : State) : Byte := s.reg spReg

/-- `FL <- f` (R18). -/
def State.setFl (f : Flag) (s : State) : State := { s with fl := f }

/-- `OUT <- OUT ++ [v]` (R27). It never fails and never blocks (D20; log 20). -/
def State.emit (v : Byte) (s : State) : State := { s with out := s.out ++ [v] }

/-- `pc <- target`, absolute assignment (R17). -/
def State.setPc (target : Byte) (s : State) : State := { s with pc := target }

/-- `RUNNING <- false`, the clean stop (R140). -/
def State.stop (s : State) : State := { s with running := false }

/-- `Advance(n)` (R16): it does not wrap. DESIGN CHOICE of the spec, D6 (log 6; unsafe). -/
def advance (n : Nat) (s : State) : Except Raise State :=
  if s.pc.toNat + n ≤ 255 then .ok (s.setPc (BitVec.ofNat 8 (s.pc.toNat + n)))
  else .error (.outOfBounds (s.pc.toNat + n : Nat))

/-! ### The stack pointer unit -/

/-- The address a push stores to, the integer `SP - 1` (R44); -1 when SP = 0. -/
def pushAddr (s : State) : Int := (s.sp.toNat : Int) - 1

/-- `Push(v)` (R44): a push with SP = 0 is out of bounds and changes nothing. -/
def push (v : Byte) (s : State) : Except Raise State := do
  let t ← memWrite (pushAddr s) v s
  .ok (t.setReg spReg (BitVec.ofInt 8 (pushAddr s)))

/-- `Pop()` (R45): the byte at SP and the state with SP incremented. A pop with SP = 255 is out of bounds:
DESIGN CHOICE of the spec, D9 (log 9; unsafe). -/
def pop (s : State) : Except Raise (Byte × State) := do
  let v ← memRead s.sp.toNat s
  if s.sp.toNat = 255 then .error (.outOfBounds 256)
  else .ok (v, s.setReg spReg (BitVec.ofNat 8 (s.sp.toNat + 1)))

end Sys2Proof.Machine
end

