-- ==== Sys2Proof/Machine/Operands.lean ====
section
/-! DEFINITION. The operand forms: the register-index check of the decode step, for the formats that have register
operands. -/

namespace Sys2Proof.Machine

/-- `CheckReg(i)` (R12): the whole byte is the index, with no masking. -/
def checkReg (i : RegOperand) : Except Raise RegIndex :=
  if h : i.toNat < 8 then .ok ⟨i.toNat, h⟩ else .error (.invalidRegister i)

/-- The check for a format with two register operands, OP2RR (R64): `a` first, then `b`. DESIGN CHOICE of the spec,
D11 (log 11; unsafe): the order. -/
def checkRegs (a b : RegOperand) : Except Raise (RegIndex × RegIndex) := do
  let ra ← checkReg a
  let rb ← checkReg b
  .ok (ra, rb)

end Sys2Proof.Machine
end

