-- ==== Sys2Proof/Machine/Alu.lean ====
section
/-! DEFINITION. The ALU (R112, R113) and the instructions that use it: ADD, SUB, MUL, DIV, MOD, AND, OR, XOR, NOT, SHL,
SHR, CMP (R100 to R111, R114). -/

namespace Sys2Proof.Machine

/-- The closed set of ALU operations (R112), so that no unsupported one can be formed (R115). -/
inductive AluOp
  | add | sub | mul | div | mod | and | or | xor | not | shl | shr | cmp
  deriving DecidableEq, Repr

/-- What one ALU call gives: a result or a flag outcome, never both (R112). -/
inductive AluOutput
  | result (v : Byte)
  | flagOutcome (f : Flag)
  deriving DecidableEq, Repr

/-- `(A + B) mod 256` (R113). -/
def aluAdd (x y : Byte) : Byte := BitVec.ofNat 8 (x.toNat + y.toNat)

/-- `(A - B) mod 256` (R113). -/
def aluSub (x y : Byte) : Byte := BitVec.ofInt 8 ((x.toNat : Int) - y.toNat)

/-- `(A * B) mod 256` (R113). -/
def aluMul (x y : Byte) : Byte := BitVec.ofNat 8 (x.toNat * y.toNat)

/-- `A div B` for `B != 0`, DivisionByZero otherwise (R113, R103). -/
def aluDiv (x y : Byte) : Except Raise Byte :=
  if y = 0 then .error .divisionByZero else .ok (BitVec.ofNat 8 (x.toNat / y.toNat))

/-- `A mod B` for `B != 0`, DivisionByZero otherwise (R113, R104). -/
def aluMod (x y : Byte) : Except Raise Byte :=
  if y = 0 then .error .divisionByZero else .ok (BitVec.ofNat 8 (x.toNat % y.toNat))

/-- Bitwise and (R105). -/
def aluAnd (x y : Byte) : Byte := x &&& y

/-- Bitwise or (R106). -/
def aluOr (x y : Byte) : Byte := x ||| y

/-- Bitwise exclusive or (R107). -/
def aluXor (x y : Byte) : Byte := x ^^^ y

/-- `255 - A` (R108). -/
def aluNot (x : Byte) : Byte := BitVec.ofNat 8 (255 - x.toNat)

/-- `(A * 2^B) mod 256` (R109): the whole of `B` is the count. DESIGN CHOICE of the spec, D17, for counts of 8 or more
(log 17; unsafe). -/
def aluShl (x y : Byte) : Byte := BitVec.ofNat 8 (x.toNat * 2 ^ y.toNat)

/-- `A div 2^B` (R110): a logical shift by the whole of `B`. DESIGN CHOICE of the spec, D17 (log 17; unsafe). -/
def aluShr (x y : Byte) : Byte := BitVec.ofNat 8 (x.toNat / 2 ^ y.toNat)

/-- `apply(op, a_value, b_value)` (R112): pure and stateless. -/
def aluApply (op : AluOp) (x y : Byte) : Except Raise AluOutput :=
  match op with
  | .add => .ok (.result (aluAdd x y))
  | .sub => .ok (.result (aluSub x y))
  | .mul => .ok (.result (aluMul x y))
  | .div => (aluDiv x y).map .result
  | .mod => (aluMod x y).map .result
  | .and => .ok (.result (aluAnd x y))
  | .or => .ok (.result (aluOr x y))
  | .xor => .ok (.result (aluXor x y))
  | .not => .ok (.result (aluNot x))
  | .shl => .ok (.result (aluShl x y))
  | .shr => .ok (.result (aluShr x y))
  | .cmp => .ok (.flagOutcome (compareFlag x y))

/-- The handler stores `result` into `x[a]`, or `flagOutcome` into FL (R112). -/
def writeBack (ra : RegIndex) (o : AluOutput) (s : State) : State :=
  match o with
  | .result v => s.setReg ra v
  | .flagOutcome f => s.setFl f

/-- The common handler of the two-register ALU instructions (R114; R111 for CMP): both registers are read before any
write. -/
def aluTwoReg (op : AluOp) (a b : RegOperand) (s : State) : Except Raise State := do
  let r ← checkRegs a b
  let o ← aluApply op (s.reg r.1) (s.reg r.2)
  advance 3 (writeBack r.1 o s)

/-- The handler of the one-register ALU instruction NOT (R108): the ALU's second input is not used. -/
def aluOneReg (op : AluOp) (a : RegOperand) (s : State) : Except Raise State := do
  let ra ← checkReg a
  let o ← aluApply op (s.reg ra) 0
  advance 2 (writeBack ra o s)

/-- ADD a, b (R100). -/
def execAdd (a b : RegOperand) (s : State) : Host.Outcome State Fault Refusal := complete s (aluTwoReg .add a b s)

/-- SUB a, b (R101). -/
def execSub (a b : RegOperand) (s : State) : Host.Outcome State Fault Refusal := complete s (aluTwoReg .sub a b s)

/-- MUL a, b (R102). -/
def execMul (a b : RegOperand) (s : State) : Host.Outcome State Fault Refusal := complete s (aluTwoReg .mul a b s)

/-- DIV a, b (R103). -/
def execDiv (a b : RegOperand) (s : State) : Host.Outcome State Fault Refusal := complete s (aluTwoReg .div a b s)

/-- MOD a, b (R104). -/
def execMod (a b : RegOperand) (s : State) : Host.Outcome State Fault Refusal := complete s (aluTwoReg .mod a b s)

/-- AND a, b (R105). -/
def execAnd (a b : RegOperand) (s : State) : Host.Outcome State Fault Refusal := complete s (aluTwoReg .and a b s)

/-- OR a, b (R106). -/
def execOr (a b : RegOperand) (s : State) : Host.Outcome State Fault Refusal := complete s (aluTwoReg .or a b s)

/-- XOR a, b (R107). -/
def execXor (a b : RegOperand) (s : State) : Host.Outcome State Fault Refusal := complete s (aluTwoReg .xor a b s)

/-- NOT a (R108). -/
def execNot (a : RegOperand) (s : State) : Host.Outcome State Fault Refusal := complete s (aluOneReg .not a s)

/-- SHL a, b (R109). -/
def execShl (a b : RegOperand) (s : State) : Host.Outcome State Fault Refusal := complete s (aluTwoReg .shl a b s)

/-- SHR a, b (R110). -/
def execShr (a b : RegOperand) (s : State) : Host.Outcome State Fault Refusal := complete s (aluTwoReg .shr a b s)

/-- CMP a, b (R111). -/
def execCmp (a b : RegOperand) (s : State) : Host.Outcome State Fault Refusal := complete s (aluTwoReg .cmp a b s)

end Sys2Proof.Machine
end

