-- ==== Sys2Proof/Machine/Control.lean ====
section
/-! DEFINITION. Control transfer: CALL, RET, JMP, JEQ, JNE (R130 to R135). -/

namespace Sys2Proof.Machine

/-- The return address of a CALL, `pc + 2` (R130); 256 is no memory index. DESIGN CHOICE of the spec, D8
(log 8; unsafe). -/
def returnAddress (s : State) : Except Raise Byte :=
  if s.pc.toNat + 2 ≤ 255 then .ok (BitVec.ofNat 8 (s.pc.toNat + 2))
  else .error (.outOfBounds (s.pc.toNat + 2 : Nat))

/-- CALL a (R130): the target is read before SP changes, so CALL R7 jumps to the old SP. DESIGN CHOICE of the spec, D5
(log 5; unsafe). -/
def execCall (a : RegOperand) (s : State) : Host.Outcome State Fault Refusal :=
  complete s do
    let ra ← checkReg a
    let ret ← returnAddress s
    let t ← push ret s
    .ok (t.setPc (s.reg ra))

/-- RET (R131). -/
def execRet (s : State) : Host.Outcome State Fault Refusal :=
  complete s do
    let p ← pop s
    .ok (p.2.setPc p.1)

/-- JMP a (R132). -/
def execJmp (a : RegOperand) (s : State) : Host.Outcome State Fault Refusal :=
  complete s do
    let ra ← checkReg a
    .ok (s.setPc (s.reg ra))

/-- A conditional jump's handler (R133, R134): to `x[a]` where taken, past the instruction where not. The register is
checked either way: DESIGN CHOICE of the spec, D19 (log 19; unsafe). -/
def jumpIf (taken : Bool) (a : RegOperand) (s : State) : Except Raise State := do
  let ra ← checkReg a
  if taken then .ok (s.setPc (s.reg ra)) else advance 2 s

/-- JEQ a (R133): taken when FL = Equal. -/
def execJeq (a : RegOperand) (s : State) : Host.Outcome State Fault Refusal :=
  complete s (jumpIf s.fl.isEqual a s)

/-- JNE a (R134): taken when FL != Equal, Unset included. -/
def execJne (a : RegOperand) (s : State) : Host.Outcome State Fault Refusal :=
  complete s (jumpIf (!s.fl.isEqual) a s)

end Sys2Proof.Machine
end

