-- ==== Sys2Proof/Machine/LoadOutput.lean ====
section
/-! DEFINITION. Load immediate and output: LDI, PRN (R90, R91). -/

namespace Sys2Proof.Machine

/-- LDI a, b (R90): the immediate is copied unchanged (R68). -/
def execLdi (a : RegOperand) (b : Byte) (s : State) : Host.Outcome State Fault Refusal :=
  complete s do
    let ra ← checkReg a
    advance 3 (s.setReg ra b)

/-- PRN a (R91). -/
def execPrn (a : RegOperand) (s : State) : Host.Outcome State Fault Refusal :=
  complete s do
    let ra ← checkReg a
    advance 2 (s.emit (s.reg ra))

end Sys2Proof.Machine
end

