-- ==== Sys2Proof/Machine/Stack.lean ====
section
/-! DEFINITION. Stack instructions: PUSH, POP (R120, R121). -/

namespace Sys2Proof.Machine

/-- PUSH a (R120): the register is read before SP changes, so PUSH R7 pushes the old SP. DESIGN CHOICE of the spec, D5
(log 5; unsafe). -/
def execPush (a : RegOperand) (s : State) : Host.Outcome State Fault Refusal :=
  complete s do
    let ra ← checkReg a
    let t ← push (s.reg ra) s
    advance 2 t

/-- POP a (R121): the popped byte is written after the increment, so POP R7 leaves the popped byte. DESIGN CHOICE of the
spec, D5 (log 5; unsafe). -/
def execPop (a : RegOperand) (s : State) : Host.Outcome State Fault Refusal :=
  complete s do
    let ra ← checkReg a
    let p ← pop s
    advance 2 (p.2.setReg ra p.1)

end Sys2Proof.Machine
end

