-- ==== Sys2Proof/Machine/System.lean ====
section
/-! DEFINITION. The one system instruction: HLT (R140, R141). -/

namespace Sys2Proof.Machine

/-- HLT (R140): `pc` keeps the address of the HLT byte. DESIGN CHOICE of the spec, D15 (log 15; unsafe). -/
def execHlt (s : State) : Host.Outcome State Fault Refusal := complete s (.ok s.stop)

end Sys2Proof.Machine
end

