-- ==== Sys2Proof/Machine/Cycle.lean ====
section
/-! DEFINITION. One cycle (R60): fetch, decode, dispatch, execute; and where the fetch reads its bytes. -/

namespace Sys2Proof.Machine

/-- The bytes an instruction at `pc` could occupy, lowest address first: those of `pc`, `pc + 1`, `pc + 2` that exist
(R46, R62). An address above 255 gives no byte and is never reduced modulo 256 (R40). -/
def fetchWindow (s : State) : List Byte :=
  [0, 1, 2].filterMap fun (k : Nat) => (memRead (s.pc.toNat + k : Nat) s).toOption

/-- The fatal error of bytes that are not an instruction: an unknown opcode is DecodeError (R63), a needed byte beyond
255 is OutOfBounds(256) (R62). -/
def fetchError : DecodeReject → Raise
  | .unknownOpcode op => .decodeError op
  | .operandMissing _ => .outOfBounds 256
  | .noOpcode => .outOfBounds 256

/-- One cycle under a configuration (R60). While RUNNING is false nothing changes (R66; D23; log 23). -/
def cycle (c : Config) (s : State) : Host.Outcome State Fault Refusal :=
  if s.running then
    match decode c (fetchWindow s) with
    | .error r => .next (enterFatal (fetchError r) s)
    | .ok i => exec i s
  else .next s

/-- A byte stored at an address, where the address exists; nothing is stored above 255. -/
def placeByte (addr : Nat) (v : Byte) (s : State) : State :=
  match memWrite addr v s with
  | .ok t => t
  | .error _ => s

/-- Bytes stored at ascending addresses. -/
def placeBytes (addr : Nat) : List Byte → State → State
  | [], s => s
  | v :: vs, s => placeBytes (addr + 1) vs (placeByte addr v s)

end Sys2Proof.Machine
end

