-- ==== Sys2Proof/Machine/Reset.lean ====
section
/-! DEFINITION. Construction from an image (R26, R180, R182). -/

namespace Sys2Proof.Machine

/-- `reset(img)` (R180): the reset state with the image at ascending addresses from 0. An image of more than 256 bytes
is refused and no machine is constructed: DESIGN CHOICE of the spec, D14 (R182; log 14; safe). -/
def construct (img : List Byte) : Host.Outcome State Fault Refusal :=
  if img.length ≤ Config.maxImage then .next (placeBytes 0 img State.reset)
  else .refused (.imageTooLong img.length)

end Sys2Proof.Machine
end

