-- ==== Sys2Proof/Machine/Step.lean ====
section
/-! DEFINITION. The machine's step: one cycle under the default configuration (R4, R60). -/

namespace Sys2Proof.Machine

/-- `step()` (R29, R60) with the defaults of OPCODE_MAP and ALU_EXT (log 1, log 2). -/
def step (s : State) : Host.Outcome State Fault Refusal := cycle Config.standard s

/-- The state with a table word's bytes stored at `pc`, running, so that the next step fetches it (log 25). -/
def State.withFetchWord (s : State) (nbits w : Nat) : State :=
  placeBytes s.pc.toNat (tableBytes nbits w) { s with running := true }

end Sys2Proof.Machine
end

