-- ==== Sys2Proof/WellFormed.lean ====
section
/-! DEFINITION. When an instruction is well formed: its row is in the dispatch table and every register-index operand
names a register. -/

namespace Sys2Proof

/-- A register-index operand is legal when it is 0 to 7 (R12, R73). -/
def RegOperand.legal (a : RegOperand) : Bool := decide (a.toNat < 8)

/-- Every register-index operand of the instruction is legal (R64, R73); LDI's immediate is not checked. -/
def Instr.regsLegal (i : Instr) : Bool := i.regOperands.all RegOperand.legal

/-- Well formed under a configuration: the row is in the dispatch table (R70, R74) and the register operands are
legal. -/
def Instr.wf (c : Config) (i : Instr) : Bool := c.inTable i.mnemonic && i.regsLegal

end Sys2Proof
end

