-- ==== Sys2Proof/Safety.lean ====
section
/-! DEFINITION. The words claims are stated in: how a run ended (R29), the halt on a fatal error as one record, what a
state leaves unchanged, and the invariant of the machine (R31). -/

namespace Sys2Proof.Machine

/-- The run has ended: `RUNNING = false` (R29). -/
def State.ended (s : State) : Prop := s.running = false

/-- The run ended cleanly, by HLT: ended with `ERR = None` (R29, R31). -/
def State.endedCleanly (s : State) : Prop := s.ended ∧ s.err = .none

/-- The run ended in a fatal error (R29). -/
def State.endedFatally (s : State) : Prop := s.ended ∧ s.err ≠ .none

/-- The state a fatal error of kind `k` leaves (R152): halted, the latch written, everything else as it was. -/
def State.fatal (k : ErrKind) (s : State) : State := { s with running := false, err := k, errpc := s.pc }

/-- Every byte of memory reads in `t` as it reads in `s`. -/
def SameMemory (s t : State) : Prop := ∀ a : Nat, t.mem.read a = s.mem.read a

/-- `t` has the status of `s`, or is `s` halted by a fatal error. -/
def StatusKeptOrFatal (s t : State) : Prop :=
  (t.running = s.running ∧ t.err = s.err ∧ t.errpc = s.errpc) ∨ ∃ k, k ≠ .none ∧ t = s.fatal k

/-- The register operand an instruction stores its result into, for the instructions whose only effect beside `pc` is
that store: LDI, the ten two-register ALU instructions of R114, and NOT (R13). -/
def resultOperand : Instr → Option RegOperand
  | .ldi a _ => some a
  | .add a _ => some a
  | .sub a _ => some a
  | .mul a _ => some a
  | .div a _ => some a
  | .mod a _ => some a
  | .and a _ => some a
  | .or a _ => some a
  | .xor a _ => some a
  | .not a => some a
  | .shl a _ => some a
  | .shr a _ => some a
  | .hlt => none
  | .prn _ => none
  | .push _ => none
  | .pop _ => none
  | .call _ => none
  | .ret => none
  | .cmp _ _ => none
  | .jmp _ => none
  | .jeq _ => none
  | .jne _ => none

/-- What every reachable state satisfies (R21, R31, R115): memory keeps its canonical form, so that every cell is a byte
at an address 0 to 255; while no fatal error has occurred ERRPC is 0; an error implies the machine is halted with ERRPC
at the failing instruction, where `pc` still is; and ERR is never UnsupportedOperation. -/
structure State.Inv (s : State) : Prop where
  mem_wf : Memory.wf s.mem
  errpc_zero : s.err = .none → s.errpc = 0
  fatal_halted : s.err ≠ .none → s.running = false
  fatal_errpc : s.err ≠ .none → s.errpc = s.pc
  supported : s.err ≠ .unsupportedOperation

end Sys2Proof.Machine
end

