-- ==== Sys2Proof/Certificates/Slice0/Obligations.lean ====
section
/-! DEFINITION. The statements for the provers, from the numbered rules of spec/. -/

open Sys2Proof Sys2Proof.Machine

/-! ### Reset and construction -/

/-- R30, R180: the reset state with the empty image. That `pc` and registers 0 to 6 are 0 is the spec's decision D13
(log 13); the latch values are D12 (log 12). -/
def Obligations.ResetHoldsTheInitialValues : Prop :=
  (∀ a : Nat, State.reset.mem.read a = 0) ∧
  (∀ r : RegIndex, r ≠ spReg → State.reset.reg r = 0) ∧ State.reset.reg spReg = 0xF4 ∧
  State.reset.pc = 0 ∧ State.reset.fl = .unset ∧ State.reset.running = true ∧
  State.reset.err = .none ∧ State.reset.errpc = 0 ∧ State.reset.out = []

/-- R26, R180, R182: an image of up to 256 bytes stands at ascending addresses from 0 with zeros above it, and everything
else is as at reset; a longer image is refused, which is the spec's decision D14 (log 14). -/
def Obligations.ConstructionPlacesTheImage : Prop :=
  ∀ img : List Byte,
    (img.length ≤ 256 → ∃ t, construct img = .next t ∧
      (∀ (a : Nat) (h : a < img.length), t.mem.read a = img[a]) ∧
      (∀ a : Nat, img.length ≤ a → t.mem.read a = 0) ∧
      t = { State.reset with mem := t.mem } ∧ t.Inv) ∧
    (256 < img.length → construct img = .refused (.imageTooLong img.length))

/-! ### Registers and memory -/

/-- R11: a set changes that one register and nothing else, and a get returns the byte set. -/
def Obligations.RegisterSetChangesOneRegister : Prop :=
  ∀ (r : RegIndex) (v : Byte) (s : State),
    (s.setReg r v).reg r = v ∧ (∀ q : RegIndex, q ≠ r → (s.setReg r v).reg q = s.reg q) ∧
    s.setReg r v = { s with x := (s.setReg r v).x }

/-- R40: a read out of range raises OutOfBounds with that index and is never reduced modulo 256; in range it returns the
byte most recently written to that cell, or its reset value, the image's byte or 0. A read answers no state, so it
changes none. -/
def Obligations.MemReadReturnsTheLatestWrite : Prop :=
  (∀ (addr : Int) (s : State), (addr < 0 ∨ 255 < addr) → memRead addr s = .error (.outOfBounds addr)) ∧
  (∀ (addr : Int) (s : State), 0 ≤ addr → addr ≤ 255 → memRead addr s = .ok (s.mem.read addr.toNat)) ∧
  (∀ (addr : Int) (img : List Byte) (t : State), 0 ≤ addr → addr ≤ 255 → construct img = .next t →
    memRead addr t = .ok (img.getD addr.toNat 0)) ∧
  (∀ (addr other : Int) (v : Byte) (s t : State), Memory.wf s.mem → memWrite addr v s = .ok t →
    memRead addr t = .ok v ∧ (other ≠ addr → memRead other t = memRead other s))

/-- R41: a write out of range raises OutOfBounds; every cell 0 to 255 is writable, and a write changes exactly that
cell. -/
def Obligations.MemWriteChangesExactlyOneCell : Prop :=
  (∀ (addr : Int) (v : Byte) (s : State), (addr < 0 ∨ 255 < addr) → memWrite addr v s = .error (.outOfBounds addr)) ∧
  (∀ (addr : Int) (v : Byte) (s : State), 0 ≤ addr → addr ≤ 255 → Memory.wf s.mem →
    ∃ t, memWrite addr v s = .ok t ∧ t.mem.read addr.toNat = v ∧
      (∀ a : Nat, a ≠ addr.toNat → t.mem.read a = s.mem.read a) ∧ t = { s with mem := t.mem })

/-- Log 28: memory is one list per contents. Two memories in canonical form that read alike at the 256 addresses are
equal. -/
def Obligations.CanonicalMemoriesThatReadAlikeAreEqual : Prop :=
  ∀ m n : Memory, m.wf → n.wf → (∀ a : Nat, a < 256 → m.read a = n.read a) → m = n

/-! ### The stack primitives -/

/-- R44: a push with SP = 0 raises OutOfBounds(-1); otherwise the byte is written at SP - 1 and SP becomes SP - 1. -/
def Obligations.PushStoresBelowTheStackPointer : Prop :=
  ∀ (v : Byte) (s : State),
    (s.sp = 0 → push v s = .error (.outOfBounds (-1))) ∧
    (s.sp ≠ 0 → Memory.wf s.mem →
      ∃ t, push v s = .ok t ∧ t.sp = s.sp - 1 ∧ t.mem.read (s.sp.toNat - 1) = v ∧
        (∀ a : Nat, a ≠ s.sp.toNat - 1 → t.mem.read a = s.mem.read a) ∧
        (∀ r : RegIndex, r ≠ spReg → t.reg r = s.reg r) ∧ t = { s with mem := t.mem, x := t.x })

/-- R45: a pop reads at SP, moves SP up and changes nothing else. That a pop with SP = 255 raises OutOfBounds(256) is
the spec's decision D9 (log 9). -/
def Obligations.PopReadsAtTheStackPointer : Prop :=
  ∀ s : State,
    (s.sp = 255 → pop s = .error (.outOfBounds 256)) ∧
    (s.sp ≠ 255 → ∃ t, pop s = .ok (s.mem.read s.sp.toNat, t) ∧ t.sp = s.sp + 1 ∧
      (∀ r : RegIndex, r ≠ spReg → t.reg r = s.reg r) ∧ t = { s with x := t.x })

/-! ### The cycle -/

/-- R61: the opcode is the byte at `pc`, and its read is always in range. -/
def Obligations.OpcodeFetchNeverFaults : Prop :=
  ∀ s : State, memRead s.pc.toNat s = .ok (s.mem.read s.pc.toNat) ∧
    (fetchWindow s).head? = some (s.mem.read s.pc.toNat)

/-- R60, R65: a running machine whose bytes at `pc` decode to an instruction executes it. The meaning itself moves `pc`;
the step adds nothing around it. -/
def Obligations.StepRunsTheDecodedInstruction : Prop :=
  ∀ (i : Instr) (s : State), s.running = true → decode Config.standard (fetchWindow s) = .ok i → step s = exec i s

/-- R46, R60, R71: under any valid configuration, when an instruction of the table stands in memory from `pc` on, byte by
byte as it is encoded, a cycle executes it. -/
def Obligations.CycleRunsTheEncodedBytes : Prop :=
  ∀ (c : Config) (i : Instr) (s : State), c.Valid → c.inTable i.mnemonic = true → s.running = true →
    s.pc.toNat + i.length ≤ 256 →
    (∀ (k : Nat) (h : k < (encode c i).length), s.mem.read (s.pc.toNat + k) = (encode c i)[k]) →
    cycle c s = exec i s

/-- R63, R152, R154: a byte that is no opcode of the table halts the machine with DecodeError and no other change. The
latch is the spec's decision D12 (log 12). -/
def Obligations.UnknownOpcodeIsDecodeError : Prop :=
  ∀ (c : Config) (s : State), s.running = true →
    (∀ m : Mnemonic, c.inTable m = true → c.opcodeMap m ≠ s.mem.read s.pc.toNat) →
    cycle c s = .next { s with running := false, err := .decodeError, errpc := s.pc }

/-- R62: an operand byte the arity asks for beyond address 255 halts the machine with OutOfBounds, and one the arity does
not ask for is not fetched, so the instruction decodes. The spec's decisions D7 and, for the failing cycle changing nothing
else, D10 (log 7, log 10). The arity of the ten "ext" rows is D3 (log 3), the bytes D1 (log 1). -/
def Obligations.OperandsAreFetchedByArity : Prop :=
  ∀ (m : Mnemonic) (s : State), s.running = true → s.mem.read s.pc.toNat = standardOpcode m →
    (255 < s.pc.toNat + m.arity →
      step s = .next { s with running := false, err := .outOfBounds, errpc := s.pc }) ∧
    (s.pc.toNat + m.arity ≤ 255 → ∃ i, i.mnemonic = m ∧ step s = exec i s ∧
      ∀ (k : Nat) (h : k < i.operands.length), i.operands[k] = s.mem.read (s.pc.toNat + 1 + k))

/-- R20, R66: a halted machine changes no more, however often it is stepped. The spec's decision D23 (log 23). -/
def Obligations.HaltedIsTerminal : Prop :=
  ∀ s : State, s.running = false → step s = .next s ∧ ∀ k : Nat, core.run k s = .next s

/-! ### The register-index check -/

/-- R73, R157, R12: a first register operand of 8 to 255 halts the machine with InvalidRegister, whatever else is wrong
and for conditional jumps taken or not (the spec's decisions D11, D19; log 11, log 19), with no other change (D10;
log 10). The operands of the ten "ext" rows are D3 (log 3). -/
def Obligations.FirstRegisterOperandIsChecked : Prop :=
  ∀ (a b : RegOperand) (s : State), 8 ≤ a.toNat →
    ∀ i ∈ [Instr.ldi a b, .prn a, .push a, .pop a, .call a, .jmp a, .jeq a, .jne a, .not a, .mul a b, .cmp a b,
      .add a b, .sub a b, .div a b, .mod a b, .and a b, .or a b, .xor a b, .shl a b, .shr a b],
      exec i s = .next { s with running := false, err := .invalidRegister, errpc := s.pc }

/-- R73, R157: a second register operand of 8 to 255 halts the machine with InvalidRegister, before a division by zero
or an advance past the end (the spec's decision D11, log 11), with no other change (D10; log 10). The operands of the
"ext" rows are D3 (log 3). -/
def Obligations.SecondRegisterOperandIsChecked : Prop :=
  ∀ (a b : RegOperand) (s : State), 8 ≤ b.toNat →
    ∀ i ∈ [Instr.mul a b, .cmp a b, .add a b, .sub a b, .div a b, .mod a b, .and a b, .or a b, .xor a b, .shl a b,
      .shr a b],
      exec i s = .next { s with running := false, err := .invalidRegister, errpc := s.pc }

/-! ### Load immediate and output -/

/-- R90: LDI copies its immediate, whatever byte it is, and advances by 3; LDI R7 moves the stack pointer. -/
def Obligations.LdiLoadsItsImmediate : Prop :=
  ∀ (r : RegIndex) (b : Byte) (s : State), s.pc.toNat ≤ 252 →
    exec (.ldi r.operand b) s = .next { s with x := s.x.set r b, pc := s.pc + 3 }

/-- R91, R27: PRN appends the register's byte to the output trace and advances by 2. -/
def Obligations.PrnEmitsTheRegister : Prop :=
  ∀ (r : RegIndex) (s : State), s.pc.toNat ≤ 253 →
    exec (.prn r.operand) s = .next { s with out := s.out ++ [s.reg r], pc := s.pc + 2 }

/-! ### The ALU -/

/-- R100, R101, R102, R113, R114: ADD, SUB and MUL modulo 256 into `x[a]`, both registers read before the write. -/
def Obligations.AddSubMulAreModulo256 : Prop :=
  ∀ (r q : RegIndex) (s : State), s.pc.toNat ≤ 252 →
    (∃ v : Byte, exec (.add r.operand q.operand) s = .next { s with x := s.x.set r v, pc := s.pc + 3 } ∧
      v.toNat = ((s.reg r).toNat + (s.reg q).toNat) % 256) ∧
    (∃ v : Byte, exec (.sub r.operand q.operand) s = .next { s with x := s.x.set r v, pc := s.pc + 3 } ∧
      (v.toNat : Int) = (((s.reg r).toNat : Int) - ((s.reg q).toNat : Int)) % 256) ∧
    (∃ v : Byte, exec (.mul r.operand q.operand) s = .next { s with x := s.x.set r v, pc := s.pc + 3 } ∧
      v.toNat = ((s.reg r).toNat * (s.reg q).toNat) % 256)

/-- R103, R104, R113, R114: for a divisor that is not 0, DIV is the floor quotient and MOD the remainder, less than the
divisor, and the two together give the dividend back. -/
def Obligations.DivModAreQuotientAndRemainder : Prop :=
  ∀ (r q : RegIndex) (s : State), s.pc.toNat ≤ 252 → s.reg q ≠ 0 →
    ∃ d m : Byte,
      exec (.div r.operand q.operand) s = .next { s with x := s.x.set r d, pc := s.pc + 3 } ∧
      exec (.mod r.operand q.operand) s = .next { s with x := s.x.set r m, pc := s.pc + 3 } ∧
      (s.reg r).toNat = (s.reg q).toNat * d.toNat + m.toNat ∧ m.toNat < (s.reg q).toNat

/-- R103, R104, R158: a divisor of 0 halts the machine with DivisionByZero and leaves the destination register, also
where the advance would have raised OutOfBounds (the spec's decision D11, log 11). -/
def Obligations.DivModByZeroHaltUnchanged : Prop :=
  ∀ (r q : RegIndex) (s : State), s.reg q = 0 →
    exec (.div r.operand q.operand) s = .next { s with running := false, err := .divisionByZero, errpc := s.pc } ∧
    exec (.mod r.operand q.operand) s = .next { s with running := false, err := .divisionByZero, errpc := s.pc }

/-- R105, R106, R107, R113: AND, OR and XOR work bit by bit on the eight positions. -/
def Obligations.AndOrXorAreBitwise : Prop :=
  ∀ (r q : RegIndex) (s : State), s.pc.toNat ≤ 252 →
    (∃ v : Byte, exec (.and r.operand q.operand) s = .next { s with x := s.x.set r v, pc := s.pc + 3 } ∧
      ∀ k < 8, v.getLsbD k = ((s.reg r).getLsbD k && (s.reg q).getLsbD k)) ∧
    (∃ v : Byte, exec (.or r.operand q.operand) s = .next { s with x := s.x.set r v, pc := s.pc + 3 } ∧
      ∀ k < 8, v.getLsbD k = ((s.reg r).getLsbD k || (s.reg q).getLsbD k)) ∧
    (∃ v : Byte, exec (.xor r.operand q.operand) s = .next { s with x := s.x.set r v, pc := s.pc + 3 } ∧
      ∀ k < 8, v.getLsbD k = ((s.reg r).getLsbD k ^^ (s.reg q).getLsbD k))

/-- R108: NOT inverts every bit, 255 - A, and advances by 2. That it has one operand byte is the spec's decision D3
(log 3). -/
def Obligations.NotInvertsEveryBit : Prop :=
  ∀ (r : RegIndex) (s : State), s.pc.toNat ≤ 253 →
    ∃ v : Byte, exec (.not r.operand) s = .next { s with x := s.x.set r v, pc := s.pc + 2 } ∧
      v.toNat = 255 - (s.reg r).toNat ∧ ∀ k < 8, v.getLsbD k = !(s.reg r).getLsbD k

/-- R109, R110, R113: SHL and SHR by the whole value of the count register, the right shift logical; a count of 8 or more
gives 0: the spec's decision D17 (log 17). That both have two operand bytes and advance by 3 is D3 (log 3). -/
def Obligations.ShiftsUseTheWholeCount : Prop :=
  ∀ (r q : RegIndex) (s : State), s.pc.toNat ≤ 252 →
    ∃ u v : Byte,
      exec (.shl r.operand q.operand) s = .next { s with x := s.x.set r u, pc := s.pc + 3 } ∧
      exec (.shr r.operand q.operand) s = .next { s with x := s.x.set r v, pc := s.pc + 3 } ∧
      (∀ k < 8, u.getLsbD k = (decide ((s.reg q).toNat ≤ k) && (s.reg r).getLsbD (k - (s.reg q).toNat))) ∧
      (∀ k < 8, v.getLsbD k = (s.reg r).getLsbD (k + (s.reg q).toNat)) ∧
      (8 ≤ (s.reg q).toNat → u = 0 ∧ v = 0)

/-- R111: CMP writes FL, whatever it held, and no register. That Greater means the first operand is the greater is the
spec's decision D18 (log 18). -/
def Obligations.CmpSetsTheFlag : Prop :=
  ∀ (r q : RegIndex) (s : State), s.pc.toNat ≤ 252 →
    ∃ f : Flag, exec (.cmp r.operand q.operand) s = .next { s with fl := f, pc := s.pc + 3 } ∧
      (f = .equal ↔ s.reg r = s.reg q) ∧ (f = .greater ↔ (s.reg q).toNat < (s.reg r).toNat) ∧
      (f = .less ↔ (s.reg r).toNat < (s.reg q).toNat) ∧ f ≠ .unset

/-! ### The stack instructions -/

/-- R120: PUSH writes the register's byte at SP - 1 and moves SP there. PUSH R7 pushes the old SP: the spec's decision
D5 (log 5). -/
def Obligations.PushStoresTheRegister : Prop :=
  ∀ (r : RegIndex) (s : State), s.pc.toNat ≤ 253 → s.sp ≠ 0 →
    exec (.push r.operand) s = .next { s with
      mem := s.mem.write (s.sp.toNat - 1) (s.reg r), x := s.x.set spReg (s.sp - 1), pc := s.pc + 2 }

/-- R121: POP loads the byte at SP and moves SP up. POP R7 leaves the popped byte: the spec's decision D5 (log 5). -/
def Obligations.PopLoadsTheRegister : Prop :=
  ∀ (r : RegIndex) (s : State), s.pc.toNat ≤ 253 → s.sp ≠ 255 →
    exec (.pop r.operand) s = .next { s with
      x := (s.x.set spReg (s.sp + 1)).set r (s.mem.read s.sp.toNat), pc := s.pc + 2 }

/-- R44, R45, R120, R121, R130, R131: a push with SP = 0 and a pop with SP = 255 halt the machine with OutOfBounds,
whatever `pc` is, and so does a CALL whose return address would be 256. The pop and the CALL are the spec's decisions
D9 and D8 (log 9, log 8), and that the failing cycle changes nothing else is D10 (log 10). -/
def Obligations.StackLeavingMemoryIsOutOfBounds : Prop :=
  ∀ (r : RegIndex) (s : State),
    (s.sp = 0 → exec (.push r.operand) s = .next { s with running := false, err := .outOfBounds, errpc := s.pc } ∧
      exec (.call r.operand) s = .next { s with running := false, err := .outOfBounds, errpc := s.pc }) ∧
    (s.sp = 255 → exec (.pop r.operand) s = .next { s with running := false, err := .outOfBounds, errpc := s.pc } ∧
      exec .ret s = .next { s with running := false, err := .outOfBounds, errpc := s.pc }) ∧
    (253 < s.pc.toNat →
      exec (.call r.operand) s = .next { s with running := false, err := .outOfBounds, errpc := s.pc })

/-- R121, doc00's stack round trip: PUSH r then POP q, q not R7, gives q the byte r had and SP its old value. With
r = R7 it holds by the spec's decision D5 (log 5). -/
def Obligations.PushThenPopRestores : Prop :=
  ∀ (r q : RegIndex) (s : State), q ≠ spReg → s.pc.toNat ≤ 251 → s.sp ≠ 0 → Memory.wf s.mem →
    ∃ t u, exec (.push r.operand) s = .next t ∧ exec (.pop q.operand) t = .next u ∧
      u.reg q = s.reg r ∧ u.sp = s.sp ∧ u.pc = s.pc + 4

/-! ### Control transfer -/

/-- R130: CALL pushes pc + 2 and jumps to the register, read before SP changes (for CALL R7 the spec's decision D5,
log 5). -/
def Obligations.CallPushesTheReturnAddress : Prop :=
  ∀ (r : RegIndex) (s : State), s.pc.toNat ≤ 253 → s.sp ≠ 0 →
    exec (.call r.operand) s = .next { s with
      mem := s.mem.write (s.sp.toNat - 1) (s.pc + 2), x := s.x.set spReg (s.sp - 1), pc := s.reg r }

/-- R131: RET pops into `pc`, at any address. -/
def Obligations.RetPopsIntoPc : Prop :=
  ∀ s : State, s.sp ≠ 255 →
    exec .ret s = .next { s with x := s.x.set spReg (s.sp + 1), pc := s.mem.read s.sp.toNat }

/-- R17: JMP, a taken JEQ or JNE, and CALL set `pc` to the register's byte, and RET to the popped byte, whatever byte
that is. That CALL R7 jumps to the old SP is the spec's decision D5 (log 5). -/
def Obligations.TransfersAssignPcUnchecked : Prop :=
  ∀ (r : RegIndex) (s : State),
    exec (.jmp r.operand) s = .next { s with pc := s.reg r } ∧
    (s.fl = .equal → exec (.jeq r.operand) s = .next { s with pc := s.reg r }) ∧
    (s.fl ≠ .equal → exec (.jne r.operand) s = .next { s with pc := s.reg r }) ∧
    (s.pc.toNat ≤ 253 → s.sp ≠ 0 → ∃ t, exec (.call r.operand) s = .next t ∧ t.running = s.running ∧ t.pc = s.reg r) ∧
    (s.sp ≠ 255 → ∃ t, exec .ret s = .next t ∧ t.running = s.running ∧ t.pc = s.mem.read s.sp.toNat)

/-- R133, R134: for every flag value exactly one of JEQ and JNE jumps, JNE also for Unset, and the other advances by
2. -/
def Obligations.JeqAndJneAreComplements : Prop :=
  ∀ (r : RegIndex) (s : State), s.pc.toNat ≤ 253 →
    exec (.jeq r.operand) s = .next { s with pc := if s.fl = .equal then s.reg r else s.pc + 2 } ∧
    exec (.jne r.operand) s = .next { s with pc := if s.fl = .equal then s.pc + 2 else s.reg r }

/-- R131, doc00's round trip: CALL to an address, then RET there, returns to the instruction after the CALL with SP
restored. That for r = R7 the address is the old SP is the spec's decision D5 (log 5). -/
def Obligations.CallThenRetReturns : Prop :=
  ∀ (r : RegIndex) (s : State), s.pc.toNat ≤ 253 → s.sp ≠ 0 → Memory.wf s.mem →
    ∃ t u, exec (.call r.operand) s = .next t ∧ t.pc = s.reg r ∧ exec .ret t = .next u ∧
      u.pc = s.pc + 2 ∧ u.sp = s.sp ∧ ∀ q : RegIndex, u.reg q = s.reg q

/-- R111, R133, R134, doc00's property: after CMP a, b, JEQ jumps exactly when the two registers are equal and JNE
exactly when they differ. -/
def Obligations.CompareThenJump : Prop :=
  ∀ (r q j : RegIndex) (s : State), s.pc.toNat ≤ 250 →
    ∃ t, exec (.cmp r.operand q.operand) s = .next t ∧
      exec (.jeq j.operand) t = .next { t with pc := if s.reg r = s.reg q then s.reg j else s.pc + 5 } ∧
      exec (.jne j.operand) t = .next { t with pc := if s.reg r = s.reg q then s.pc + 5 else s.reg j }

/-- R140: HLT clears RUNNING at any address and changes nothing else. That `pc` stays is the spec's decision D15
(log 15). -/
def Obligations.HltStopsCleanly : Prop :=
  ∀ s : State, exec .hlt s = .next { s with running := false }

/-- R16: an instruction that would advance past address 255 halts the machine with OutOfBounds and has no other effect.
The spec's decisions D6 and D10 (log 6, log 10); which length each "ext" row has, NOT's two bytes among them, is D3
(log 3). -/
def Obligations.AdvancePastTheEndIsOutOfBounds : Prop :=
  ∀ (r q : RegIndex) (b : Byte) (s : State),
    (252 < s.pc.toNat →
      ∀ i ∈ [Instr.ldi r.operand b, .mul r.operand q.operand, .cmp r.operand q.operand, .add r.operand q.operand,
        .sub r.operand q.operand, .and r.operand q.operand, .or r.operand q.operand, .xor r.operand q.operand,
        .shl r.operand q.operand, .shr r.operand q.operand],
        exec i s = .next { s with running := false, err := .outOfBounds, errpc := s.pc }) ∧
    (252 < s.pc.toNat → s.reg q ≠ 0 → ∀ i ∈ [Instr.div r.operand q.operand, .mod r.operand q.operand],
      exec i s = .next { s with running := false, err := .outOfBounds, errpc := s.pc }) ∧
    (253 < s.pc.toNat → ∀ i ∈ [Instr.prn r.operand, .not r.operand, .push r.operand, .pop r.operand],
      exec i s = .next { s with running := false, err := .outOfBounds, errpc := s.pc }) ∧
    (253 < s.pc.toNat → s.fl ≠ .equal →
      exec (.jeq r.operand) s = .next { s with running := false, err := .outOfBounds, errpc := s.pc }) ∧
    (253 < s.pc.toNat → s.fl = .equal →
      exec (.jne r.operand) s = .next { s with running := false, err := .outOfBounds, errpc := s.pc })

/-! ### Frames -/

/-- R13, R19, R43: LDI, the ten two-register ALU instructions and NOT change no register but the one their first operand
names, no byte of memory, neither FL nor OUT, and no status but by a fatal error. That a fatal error keeps everything else
is the spec's decision D10 (log 10; R152, R153). -/
def Obligations.ResultInstructionsFrame : Prop :=
  ∀ (i : Instr) (a : RegOperand) (s t : State), resultOperand i = some a → exec i s = .next t →
    (∀ q : RegIndex, q.operand ≠ a → t.reg q = s.reg q) ∧ SameMemory s t ∧ t.fl = s.fl ∧ t.out = s.out ∧
    StatusKeptOrFatal s t

/-- R13, R43: PRN, CMP, JMP, JEQ, JNE and HLT change no register and no byte of memory; only CMP may change FL, only PRN
may change OUT, and only HLT or a fatal error may change the status. That a fatal error keeps everything else is the
spec's decision D10 (log 10; R152, R153). -/
def Obligations.RegisterPreservingInstructionsFrame : Prop :=
  ∀ (a b : RegOperand) (s t : State),
    (∀ i ∈ [Instr.prn a, .cmp a b, .jmp a, .jeq a, .jne a, .hlt], exec i s = .next t →
      (∀ q : RegIndex, t.reg q = s.reg q) ∧ SameMemory s t) ∧
    (∀ i ∈ [Instr.prn a, .jmp a, .jeq a, .jne a, .hlt], exec i s = .next t → t.fl = s.fl) ∧
    (∀ i ∈ [Instr.cmp a b, .jmp a, .jeq a, .jne a, .hlt], exec i s = .next t → t.out = s.out) ∧
    (∀ i ∈ [Instr.prn a, .cmp a b, .jmp a, .jeq a, .jne a], exec i s = .next t → StatusKeptOrFatal s t) ∧
    (exec .hlt s = .next t → t.err = s.err ∧ t.errpc = s.errpc)

/-- R43, R44: PUSH and CALL change no byte of memory but the one at the address a push stores to, no register but R7,
neither FL nor OUT, and no status but by a fatal error. That a fatal error keeps everything else, so that a PUSH halted by
its advance stored nothing, is the spec's decision D10 (log 10; R152, R153). -/
def Obligations.StackWritersFrame : Prop :=
  ∀ (a : RegOperand) (s t : State), Memory.wf s.mem → ∀ i ∈ [Instr.push a, .call a], exec i s = .next t →
    (∀ addr : Nat, (addr : Int) ≠ pushAddr s → t.mem.read addr = s.mem.read addr) ∧
    (∀ q : RegIndex, q ≠ spReg → t.reg q = s.reg q) ∧ t.fl = s.fl ∧ t.out = s.out ∧ StatusKeptOrFatal s t

/-- R43, R45: POP and RET change no byte of memory, no register but R7 and, for POP, the one its operand names, neither
FL nor OUT, and no status but by a fatal error. That a fatal error keeps everything else, so that a POP halted by its
advance wrote no register, is the spec's decision D10 (log 10; R152, R153). -/
def Obligations.StackReadersFrame : Prop :=
  ∀ (a : RegOperand) (s t : State),
    (exec (.pop a) s = .next t → ∀ q : RegIndex, q ≠ spReg → q.operand ≠ a → t.reg q = s.reg q) ∧
    (exec .ret s = .next t → ∀ q : RegIndex, q ≠ spReg → t.reg q = s.reg q) ∧
    (∀ i ∈ [Instr.pop a, .ret], exec i s = .next t →
      SameMemory s t ∧ t.fl = s.fl ∧ t.out = s.out ∧ StatusKeptOrFatal s t)

/-! ### The whole machine -/

/-- R60, R152: a cycle always answers a next state. Every abnormal condition is a halted state, none stops the model. -/
def Obligations.EveryCycleAnswersNext : Prop :=
  ∀ (c : Config) (s : State), ∃ t, cycle c s = .next t

/-- R21, R31, R115: every cycle, under every configuration, keeps the invariant. -/
def Obligations.EveryCycleKeepsTheInvariant : Prop :=
  ∀ (c : Config) (s t : State), s.Inv → cycle c s = .next t → t.Inv

/-- R31: the reset state meets the invariant. -/
def Obligations.ResetMeetsTheInvariant : Prop := State.reset.Inv

/-- R152, R153: a step that changes the error latch changes nothing but RUNNING, ERR and ERRPC, and ERRPC is the failing
instruction's address. The spec's decisions D10, D12 (log 10, log 12). -/
def Obligations.FatalErrorsArePrecise : Prop :=
  ∀ s t : State, step s = .next t → (t.err ≠ s.err ∨ t.errpc ≠ s.errpc) →
    s.running = true ∧ t.err ≠ .none ∧
      t = { s with running := false, err := t.err, errpc := s.pc }

/-- R31, R141: a step that stops the machine with ERR = None ran HLT, and changed nothing but RUNNING. The byte 0x01 is the
spec's decision D1 (log 1), and that `pc` stays is D15 (log 15). -/
def Obligations.CleanStopIsHlt : Prop :=
  ∀ s t : State, step s = .next t → s.running = true → t.running = false → t.err = .none →
    s.mem.read s.pc.toNat = 0x01 ∧ t = { s with running := false }

/-- R18: FL is Unset at reset, a CMP that completes sets it to Equal, Greater or Less, no other instruction changes it,
no instruction but a conditional jump consumes it, and, under every configuration, no cycle whose opcode byte is not
CMP's changes it and none makes it Unset again. -/
def Obligations.FlagPersistsUntilTheNextCompare : Prop :=
  State.reset.fl = .unset ∧
  (∀ (r q : RegIndex) (s : State), s.pc.toNat ≤ 252 →
    ∃ t, exec (.cmp r.operand q.operand) s = .next t ∧ t.running = s.running ∧
      (t.fl = .equal ∨ t.fl = .greater ∨ t.fl = .less)) ∧
  (∀ (i : Instr) (s t : State), i.mnemonic ≠ .cmp → exec i s = .next t → t.fl = s.fl) ∧
  (∀ (i : Instr) (f : Flag) (s t : State), i.mnemonic ≠ .jeq → i.mnemonic ≠ .jne → exec i s = .next t →
    ∃ g, exec i { s with fl := f } = .next { t with fl := g }) ∧
  (∀ (c : Config) (s t : State), cycle c s = .next t → lookup c (s.mem.read s.pc.toNat) ≠ some .cmp → t.fl = s.fl) ∧
  (∀ (c : Config) (s t : State), cycle c s = .next t → s.fl ≠ .unset → t.fl ≠ .unset)

/-- R19: CMP is the only writer of FL; only JEQ and JNE read it; and they test only whether it is Equal, so that no
instruction tells Greater from Less. -/
def Obligations.FlagIsWrittenByCmpAndReadByJumps : Prop :=
  (∀ (i : Instr) (s t : State), exec i s = .next t → t.fl ≠ s.fl → i.mnemonic = .cmp) ∧
  (∀ (i : Instr) (f : Flag) (s t : State), i.mnemonic ≠ .jeq → i.mnemonic ≠ .jne → exec i s = .next t →
    ∃ g, exec i { s with fl := f } = .next { t with fl := g }) ∧
  (∀ (i : Instr) (f : Flag) (s t : State), (f = .equal ↔ s.fl = .equal) → exec i s = .next t →
    ∃ g, exec i { s with fl := f } = .next { t with fl := g })

/-- R43: a step that changes a byte of memory ran PUSH or CALL, and the byte is the one at SP - 1. -/
def Obligations.OnlyPushAndCallWriteMemory : Prop :=
  ∀ (s t : State) (a : Nat), Memory.wf s.mem → step s = .next t → t.mem.read a ≠ s.mem.read a →
    (s.mem.read s.pc.toNat = 0x45 ∨ s.mem.read s.pc.toNat = 0x50) ∧ s.sp ≠ 0 ∧ a + 1 = s.sp.toNat

/-- R27, R31: OUT only grows, by the byte of the register a PRN names. -/
def Obligations.OutputGrowsByPrnOnly : Prop :=
  ∀ s t : State, step s = .next t →
    t.out = s.out ∨
      (s.mem.read s.pc.toNat = 0x47 ∧
        ∃ r : RegIndex, s.mem.read (s.pc.toNat + 1) = r.operand ∧ t.out = s.out ++ [s.reg r])

/-- R27: the program cannot read OUT. A step does the same whatever was emitted before, and appends the same bytes. -/
def Obligations.OutputIsNeverRead : Prop :=
  ∀ (s t : State) (o : List Byte), step s = .next t →
    ∃ w : List Byte, t.out = s.out ++ w ∧ step { s with out := o } = .next { t with out := o ++ w }

/-- R15: a step that does not stop the machine leaves `pc` advanced by 2 or 3 without wrapping, or assigned from a
register or from the byte at SP. That an advance does not wrap is the spec's decision D6 (log 6), and that CALL R7 assigns
the old SP is D5 (log 5). -/
def Obligations.PcAdvancesOrIsAssigned : Prop :=
  ∀ s t : State, step s = .next t → t.running = true →
    t.pc.toNat = s.pc.toNat + 2 ∨ t.pc.toNat = s.pc.toNat + 3 ∨ (∃ r : RegIndex, t.pc = s.reg r) ∨
      t.pc = s.mem.read s.sp.toNat

/-- R53: under every configuration, the byte a PUSH or a CALL writes is what the next opcode fetch reads, where `pc` has
come to that address, and what any fetch of that address reads, as opcode or as operand, in every state in which the
address still holds it. The instruction may be overwriting its own bytes. That PUSH R7 writes the old SP is the spec's
decision D5 (log 5). -/
def Obligations.PushedByteIsFetchedNext : Prop :=
  ∀ (c : Config) (r : RegIndex) (s : State), Memory.wf s.mem → s.running = true → s.pc.toNat ≤ 253 → s.sp ≠ 0 →
    ∀ p ∈ [(Instr.push r.operand, s.reg r), (.call r.operand, s.pc + 2)], decode c (fetchWindow s) = .ok p.1 →
      ∃ t, cycle c s = .next t ∧ t.running = true ∧
        ((t.pc.toNat : Int) = pushAddr s → (fetchWindow t).head? = some p.2) ∧
        ∀ (u : State) (k : Nat), k < 3 → u.mem.read (s.sp.toNat - 1) = t.mem.read (s.sp.toNat - 1) →
          ((u.pc.toNat + k : Nat) : Int) = pushAddr s → (fetchWindow u)[k]? = some p.2

/-! ### Encoding -/

/-- R67, R68, R71: under any valid configuration, decoding the encoding of an instruction of the table gives it back,
with every operand at every byte value and whatever bytes follow. -/
def Obligations.DecodeInvertsEncode : Prop :=
  ∀ (c : Config) (i : Instr) (rest : List Byte), c.Valid → c.inTable i.mnemonic = true →
    decode c (encode c i ++ rest) = .ok i

/-- R63, R69: bytes that decode to an instruction begin with that instruction's encoding, and its row is in the table. -/
def Obligations.DecodedBytesAreItsEncoding : Prop :=
  ∀ (c : Config) (bs : List Byte) (i : Instr), decode c bs = .ok i →
    c.inTable i.mnemonic = true ∧ bs.take i.length = encode c i

/-- R71, R72: the default opcode bytes are injective, 22 of the 256 bytes are opcodes, and 12 without ALU_EXT. The byte
values are the spec's decision D1 (log 1). -/
def Obligations.StandardOpcodesAreDistinct : Prop :=
  Config.standard.Valid ∧ ({ Config.standard with aluExt := false } : Config).Valid ∧
  ((List.range 256).filter fun n => (lookup Config.standard (BitVec.ofNat 8 n)).isNone).length = 234 ∧
  ((List.range 256).filter fun n =>
    (lookup { Config.standard with aluExt := false } (BitVec.ofNat 8 n)).isNone).length = 244

/-- R67, R70: bytes written out from the formats and the opcode table, one or more of each format, decode to their
instructions. The byte values are the spec's decision D1 (log 1), and NOT's one operand byte is D3 (log 3). -/
def Obligations.WrittenBytesDecode : Prop :=
  decode Config.standard [0x01] = .ok .hlt ∧ decode Config.standard [0x11] = .ok .ret ∧
  decode Config.standard [0x82, 0x07, 0xFF] = .ok (.ldi 7 255) ∧
  decode Config.standard [0xA2, 0x00, 0x01] = .ok (.mul 0 1) ∧
  decode Config.standard [0xA7, 0x03, 0x05] = .ok (.cmp 3 5) ∧
  decode Config.standard [0x45, 0x06] = .ok (.push 6) ∧
  decode Config.standard [0x50, 0x01, 0xA0] = .ok (.call 1) ∧
  decode Config.standard [0x69, 0x04] = .ok (.not 4) ∧
  decode Config.standard [0x00] = .error (.unknownOpcode 0x00) ∧
  decode Config.standard [0x82, 0x00] = .error (.operandMissing .ldi)

/-- R74: without ALU_EXT the ten "ext" opcode bytes halt with DecodeError, and on every other byte the cycle is the
default one. That ALU_EXT is a parameter is the spec's decision D2 (log 2). -/
def Obligations.WithoutAluExtOnlyTenOpcodesChange : Prop :=
  ∀ s : State,
    (s.running = true → (∃ m : Mnemonic, m.isExt = true ∧ s.mem.read s.pc.toNat = standardOpcode m) →
      cycle { Config.standard with aluExt := false } s =
        .next { s with running := false, err := .decodeError, errpc := s.pc }) ∧
    ((∀ m : Mnemonic, m.isExt = true → s.mem.read s.pc.toNat ≠ standardOpcode m) →
      cycle { Config.standard with aluExt := false } s = step s)

/-! ### A self-modifying program -/

/-- R53, R140: a PUSH that stores the HLT byte over the next instruction stops the machine cleanly in the following step.
The bytes 0x45 and 0x01 are the spec's decision D1 (log 1), and that `pc` stays at the HLT is D15 (log 15). -/
def Obligations.PushedHltStopsTheMachine : Prop :=
  ∀ (r : RegIndex) (s : State), Memory.wf s.mem → s.running = true → s.err = .none → s.pc.toNat ≤ 252 →
    s.mem.read s.pc.toNat = 0x45 → s.mem.read (s.pc.toNat + 1) = r.operand → s.reg r = 0x01 →
    s.sp.toNat = s.pc.toNat + 3 →
    ∃ t u, step s = .next t ∧ step t = .next u ∧ u.endedCleanly ∧ u.pc = s.pc + 2
end

