-- ==== Sys2Proof/Laws/Memory.lean ====
section
/-! SUPPORT. Memory as data: what a write does to every later read, that it keeps the canonical form, and that memories
in canonical form are equal when they read alike. -/

namespace Sys2Proof.Machine

@[simp] theorem Memory.read_nil (a : Nat) : Memory.read [] a = 0 := rfl

theorem Memory.read_cons (c : Host.Cell) (m : Memory) (a : Nat) :
    Memory.read (c :: m) a = if c.1 = a then c.2 else Memory.read m a := rfl

theorem Memory.read_unlisted {m : Memory} {a : Nat} (h : ∀ c ∈ m, c.1 ≠ a) : m.read a = 0 := by
  induction m with
  | nil => rfl
  | cons c m ih =>
    rw [Memory.read_cons, if_neg (h c (by simp))]
    exact ih fun d hd => h d (by simp [hd])

/-- The tail of a canonical memory is canonical, and lies above its head. -/
theorem Memory.wf_cons {c : Host.Cell} {m : Memory} :
    Memory.wf (c :: m) ↔ (∀ d ∈ m, c.1 < d.1) ∧ c.1 < Config.memSize ∧ c.2 ≠ 0 ∧ Memory.wf m := by
  simp only [Memory.wf, List.pairwise_cons, List.forall_mem_cons]
  exact ⟨fun ⟨⟨h, p⟩, ⟨a, b⟩, q⟩ => ⟨h, a, b, p, q⟩, fun ⟨h, a, b, p, q⟩ => ⟨⟨h, p⟩, ⟨a, b⟩, q⟩⟩

theorem Memory.read_of_lt_head {c : Host.Cell} {m : Memory} {a : Nat} (h : Memory.wf (c :: m)) (ha : a ≤ c.1) :
    m.read a = 0 :=
  Memory.read_unlisted fun d hd => by have := (Memory.wf_cons.mp h).1 d hd; omega

theorem Memory.read_consCell {m : Memory} {a : Nat} (v : Byte) (b : Nat) (h : m.read a = 0) :
    Memory.read (Memory.consCell a v m) b = if a = b then v else m.read b := by
  unfold Memory.consCell
  split
  · rename_i hv
    split
    · rename_i hab; subst hab; rw [h, hv]; rfl
    · rfl
  · rfl

/-- A write of a canonical memory changes exactly one cell (R41). -/
theorem Memory.read_write {m : Memory} (h : m.wf) (a : Nat) (v : Byte) (b : Nat) :
    (m.write a v).read b = if a = b then v else m.read b := by
  induction m with
  | nil => exact Memory.read_consCell v b rfl
  | cons c m ih =>
    have hm := (Memory.wf_cons.mp h).2.2.2
    simp only [Memory.write]
    split
    · rename_i hlt
      have h0 : Memory.read (c :: m) a = 0 := by
        rw [Memory.read_cons, if_neg (by omega)]
        exact Memory.read_of_lt_head h (by omega)
      exact Memory.read_consCell v b h0
    · split
      · rename_i _ hEq
        subst hEq
        rw [Memory.read_consCell v b (Memory.read_of_lt_head h (Nat.le_refl _)), Memory.read_cons]
        split <;> rfl
      · rename_i _ hne
        rw [Memory.read_cons, ih hm, Memory.read_cons]
        by_cases hcb : c.1 = b
        · rw [if_pos hcb, if_pos hcb, if_neg (by omega)]
        · rw [if_neg hcb, if_neg hcb]

theorem Memory.mem_consCell {m : Memory} {a : Nat} {v : Byte} {d : Host.Cell} (h : d ∈ Memory.consCell a v m) :
    (d = (a, v) ∧ v ≠ 0) ∨ d ∈ m := by
  unfold Memory.consCell at h
  split at h
  · exact .inr h
  · rename_i hv
    rcases List.mem_cons.mp h with rfl | h
    · exact .inl ⟨rfl, hv⟩
    · exact .inr h

theorem Memory.wf_consCell {m : Memory} {a : Nat} {v : Byte} (hm : m.wf) (ha : a < Config.memSize)
    (hlt : ∀ d ∈ m, a < d.1) : Memory.wf (Memory.consCell a v m) := by
  unfold Memory.consCell
  split
  · exact hm
  · rename_i hv
    exact Memory.wf_cons.mpr ⟨hlt, ha, hv, hm⟩

theorem Memory.mem_write {m : Memory} {a : Nat} {v : Byte} {d : Host.Cell} (h : d ∈ m.write a v) :
    d.1 = a ∨ d ∈ m := by
  induction m with
  | nil =>
    rcases Memory.mem_consCell h with ⟨rfl, _⟩ | h
    · exact .inl rfl
    · exact .inr h
  | cons c m ih =>
    simp only [Memory.write] at h
    split at h
    · rcases Memory.mem_consCell h with ⟨rfl, _⟩ | h
      · exact .inl rfl
      · exact .inr h
    · split at h
      · rcases Memory.mem_consCell h with ⟨rfl, _⟩ | h
        · exact .inl rfl
        · exact .inr (List.mem_cons_of_mem _ h)
      · rcases List.mem_cons.mp h with rfl | h
        · exact .inr (by simp)
        · rcases ih h with h | h
          · exact .inl h
          · exact .inr (List.mem_cons_of_mem _ h)

/-- A write at an address that exists keeps the canonical form. -/
theorem Memory.write_wf {m : Memory} (h : m.wf) {a : Nat} (ha : a < Config.memSize) (v : Byte) : (m.write a v).wf := by
  induction m with
  | nil => exact Memory.wf_consCell h ha (by simp)
  | cons c m ih =>
    obtain ⟨hlt, hc, hv, hm⟩ := Memory.wf_cons.mp h
    simp only [Memory.write]
    split
    · rename_i hac
      refine Memory.wf_consCell h ha fun d hd => ?_
      rcases List.mem_cons.mp hd with rfl | hd
      · exact hac
      · exact Nat.lt_trans hac (hlt d hd)
    · split
      · rename_i _ hEq
        subst hEq
        exact Memory.wf_consCell hm ha hlt
      · rename_i hge hne
        refine Memory.wf_cons.mpr ⟨fun d hd => ?_, hc, hv, ih hm⟩
        rcases Memory.mem_write hd with hd | hd
        · omega
        · exact hlt d hd

theorem Memory.read_head {c : Host.Cell} {m : Memory} : Memory.read (c :: m) c.1 = c.2 := by
  rw [Memory.read_cons, if_pos rfl]

/-- The empty memory, reset's, is canonical. -/
theorem Memory.wf_nil : Memory.wf [] := by simp [Memory.wf]

end Sys2Proof.Machine
end

