-- ==== Sys2Proof/Laws/State.lean ====
section
/-! SUPPORT. One lemma per field per update of State, and the register file's get after set. -/

namespace Sys2Proof.Machine

variable (s : State) (m : Memory) (r q : RegIndex) (v : Byte) (f : Flag) (e : Raise)

@[simp] theorem State.setMem_mem : (s.setMem m).mem = m := rfl
@[simp] theorem State.setMem_x : (s.setMem m).x = s.x := rfl
@[simp] theorem State.setMem_pc : (s.setMem m).pc = s.pc := rfl
@[simp] theorem State.setMem_fl : (s.setMem m).fl = s.fl := rfl
@[simp] theorem State.setMem_running : (s.setMem m).running = s.running := rfl
@[simp] theorem State.setMem_err : (s.setMem m).err = s.err := rfl
@[simp] theorem State.setMem_errpc : (s.setMem m).errpc = s.errpc := rfl
@[simp] theorem State.setMem_out : (s.setMem m).out = s.out := rfl

@[simp] theorem State.setReg_mem : (s.setReg r v).mem = s.mem := rfl
@[simp] theorem State.setReg_x : (s.setReg r v).x = s.x.set r v := rfl
@[simp] theorem State.setReg_pc : (s.setReg r v).pc = s.pc := rfl
@[simp] theorem State.setReg_fl : (s.setReg r v).fl = s.fl := rfl
@[simp] theorem State.setReg_running : (s.setReg r v).running = s.running := rfl
@[simp] theorem State.setReg_err : (s.setReg r v).err = s.err := rfl
@[simp] theorem State.setReg_errpc : (s.setReg r v).errpc = s.errpc := rfl
@[simp] theorem State.setReg_out : (s.setReg r v).out = s.out := rfl

@[simp] theorem State.setFl_mem : (s.setFl f).mem = s.mem := rfl
@[simp] theorem State.setFl_x : (s.setFl f).x = s.x := rfl
@[simp] theorem State.setFl_pc : (s.setFl f).pc = s.pc := rfl
@[simp] theorem State.setFl_fl : (s.setFl f).fl = f := rfl
@[simp] theorem State.setFl_running : (s.setFl f).running = s.running := rfl
@[simp] theorem State.setFl_err : (s.setFl f).err = s.err := rfl
@[simp] theorem State.setFl_errpc : (s.setFl f).errpc = s.errpc := rfl
@[simp] theorem State.setFl_out : (s.setFl f).out = s.out := rfl

@[simp] theorem State.emit_mem : (s.emit v).mem = s.mem := rfl
@[simp] theorem State.emit_x : (s.emit v).x = s.x := rfl
@[simp] theorem State.emit_pc : (s.emit v).pc = s.pc := rfl
@[simp] theorem State.emit_fl : (s.emit v).fl = s.fl := rfl
@[simp] theorem State.emit_running : (s.emit v).running = s.running := rfl
@[simp] theorem State.emit_err : (s.emit v).err = s.err := rfl
@[simp] theorem State.emit_errpc : (s.emit v).errpc = s.errpc := rfl
@[simp] theorem State.emit_out : (s.emit v).out = s.out ++ [v] := rfl

@[simp] theorem State.setPc_mem : (s.setPc v).mem = s.mem := rfl
@[simp] theorem State.setPc_x : (s.setPc v).x = s.x := rfl
@[simp] theorem State.setPc_pc : (s.setPc v).pc = v := rfl
@[simp] theorem State.setPc_fl : (s.setPc v).fl = s.fl := rfl
@[simp] theorem State.setPc_running : (s.setPc v).running = s.running := rfl
@[simp] theorem State.setPc_err : (s.setPc v).err = s.err := rfl
@[simp] theorem State.setPc_errpc : (s.setPc v).errpc = s.errpc := rfl
@[simp] theorem State.setPc_out : (s.setPc v).out = s.out := rfl

@[simp] theorem State.stop_mem : s.stop.mem = s.mem := rfl
@[simp] theorem State.stop_x : s.stop.x = s.x := rfl
@[simp] theorem State.stop_pc : s.stop.pc = s.pc := rfl
@[simp] theorem State.stop_fl : s.stop.fl = s.fl := rfl
@[simp] theorem State.stop_running : s.stop.running = false := rfl
@[simp] theorem State.stop_err : s.stop.err = s.err := rfl
@[simp] theorem State.stop_errpc : s.stop.errpc = s.errpc := rfl
@[simp] theorem State.stop_out : s.stop.out = s.out := rfl

@[simp] theorem enterFatal_mem : (enterFatal e s).mem = s.mem := rfl
@[simp] theorem enterFatal_x : (enterFatal e s).x = s.x := rfl
@[simp] theorem enterFatal_pc : (enterFatal e s).pc = s.pc := rfl
@[simp] theorem enterFatal_fl : (enterFatal e s).fl = s.fl := rfl
@[simp] theorem enterFatal_running : (enterFatal e s).running = false := rfl
@[simp] theorem enterFatal_err : (enterFatal e s).err = e.kind := rfl
@[simp] theorem enterFatal_errpc : (enterFatal e s).errpc = s.pc := rfl
@[simp] theorem enterFatal_out : (enterFatal e s).out = s.out := rfl

@[simp] theorem State.reg_setReg_same : (s.setReg r v).reg r = v := by
  simp [State.reg, State.setReg]

theorem State.reg_setReg_other (h : q ≠ r) : (s.setReg r v).reg q = s.reg q := by
  have hv : r.val ≠ q.val := fun hc => h (Fin.ext hc.symm)
  simp [State.reg, State.setReg, Vector.getElem_set_ne, hv]

@[simp] theorem State.reg_setMem : (s.setMem m).reg q = s.reg q := rfl
@[simp] theorem State.reg_setFl : (s.setFl f).reg q = s.reg q := rfl
@[simp] theorem State.reg_emit : (s.emit v).reg q = s.reg q := rfl
@[simp] theorem State.reg_setPc : (s.setPc v).reg q = s.reg q := rfl
@[simp] theorem State.reg_stop : s.stop.reg q = s.reg q := rfl
@[simp] theorem reg_enterFatal : (enterFatal e s).reg q = s.reg q := rfl

@[simp] theorem State.sp_setMem : (s.setMem m).sp = s.sp := rfl
@[simp] theorem State.sp_setPc : (s.setPc v).sp = s.sp := rfl
@[simp] theorem State.sp_setReg : (s.setReg spReg v).sp = v := by simp [State.sp]

end Sys2Proof.Machine
end

