-- ==== Sys2Proof/Laws/Ops.lean ====
section
/-! SUPPORT. One specification lemma per shared operation: everything it can answer. Callers cite these and do not
unfold the operation. -/

namespace Sys2Proof.Machine

variable (s : State)

/-! ### Register operands -/

theorem RegIndex.toNat_operand (r : RegIndex) : (RegIndex.operand r).toNat = r.val := by
  have := r.isLt
  simp only [RegIndex.operand, BitVec.toNat_ofNat]
  omega

theorem RegIndex.operand_inj {r q : RegIndex} (h : RegIndex.operand r = RegIndex.operand q) : r = q := by
  have := congrArg BitVec.toNat h
  rw [RegIndex.toNat_operand, RegIndex.toNat_operand] at this
  exact Fin.ext this

@[simp] theorem checkReg_operand (r : RegIndex) : checkReg (RegIndex.operand r) = .ok r := by
  have h := RegIndex.toNat_operand r
  have := r.isLt
  unfold checkReg
  rw [dif_pos (by omega)]
  exact congrArg Except.ok (Fin.ext h)

theorem checkReg_illegal {a : RegOperand} (h : 8 ≤ a.toNat) : checkReg a = .error (.invalidRegister a) := by
  unfold checkReg
  rw [dif_neg (by omega)]

/-- `CheckReg` answers the register the byte names, or InvalidRegister (R12). -/
theorem checkReg_cases (a : RegOperand) :
    (∃ r, a = RegIndex.operand r ∧ checkReg a = .ok r) ∨ (8 ≤ a.toNat ∧ checkReg a = .error (.invalidRegister a)) := by
  by_cases h : a.toNat < 8
  · refine .inl ⟨⟨a.toNat, h⟩, BitVec.eq_of_toNat_eq ?_, by simp [checkReg, h]⟩
    rw [RegIndex.toNat_operand]
  · exact .inr ⟨by omega, checkReg_illegal (by omega)⟩

/-! ### The end of a cycle -/

@[simp] theorem complete_ok (t : State) : complete s (.ok t) = .next t := rfl
@[simp] theorem complete_error (e : Raise) : complete s (.error e) = .next (enterFatal e s) := rfl

theorem except_bind_ok {α β : Type} (x : α) (f : α → Except Raise β) : (Except.ok x >>= f) = f x := rfl

theorem except_bind_error {α β : Type} (e : Raise) (f : α → Except Raise β) :
    ((Except.error e : Except Raise α) >>= f) = .error e := rfl

/-! ### Program counter -/

theorem pc_add (n : Nat) : BitVec.ofNat 8 (s.pc.toNat + n) = s.pc + BitVec.ofNat 8 n := by
  simp [BitVec.ofNat_add]

theorem advance_ok {n : Nat} (h : s.pc.toNat + n ≤ 255) :
    advance n s = .ok (s.setPc (s.pc + BitVec.ofNat 8 n)) := by
  unfold advance
  rw [if_pos h, pc_add]

theorem advance_error {n : Nat} (h : 255 < s.pc.toNat + n) :
    advance n s = .error (.outOfBounds (s.pc.toNat + n : Nat)) := by
  unfold advance
  rw [if_neg (by omega)]

/-- `Advance` moves `pc` by `n` or raises OutOfBounds; it never wraps (R16). -/
theorem advance_cases (n : Nat) :
    (s.pc.toNat + n ≤ 255 ∧ advance n s = .ok (s.setPc (s.pc + BitVec.ofNat 8 n))) ∨
      (255 < s.pc.toNat + n ∧ advance n s = .error (.outOfBounds (s.pc.toNat + n : Nat))) := by
  by_cases h : s.pc.toNat + n ≤ 255
  · exact .inl ⟨h, advance_ok s h⟩
  · exact .inr ⟨by omega, advance_error s (by omega)⟩

theorem returnAddress_cases :
    (s.pc.toNat ≤ 253 ∧ returnAddress s = .ok (s.pc + 2)) ∨
      (253 < s.pc.toNat ∧ returnAddress s = .error (.outOfBounds (s.pc.toNat + 2 : Nat))) := by
  unfold returnAddress
  by_cases h : s.pc.toNat + 2 ≤ 255
  · exact .inl ⟨by omega, by rw [if_pos h, pc_add]; rfl⟩
  · exact .inr ⟨by omega, by rw [if_neg h]⟩

/-! ### Memory -/

theorem memRead_byte (a : Byte) : memRead (a.toNat : Int) s = .ok (s.mem.read a.toNat) := by
  have := a.isLt
  unfold memRead
  rw [if_pos ⟨by omega, by omega⟩, Int.toNat_natCast]

theorem memRead_outside {addr : Int} (h : ¬ inRange addr) : memRead addr s = .error (.outOfBounds addr) :=
  if_neg h

theorem memWrite_outside {addr : Int} (v : Byte) (h : ¬ inRange addr) : memWrite addr v s = .error (.outOfBounds addr) :=
  if_neg h

theorem memWrite_inside {addr : Int} (v : Byte) (h : inRange addr) :
    memWrite addr v s = .ok (s.setMem (s.mem.write addr.toNat v)) :=
  if_pos h

/-! ### The stack -/

/-- The state a push leaves: the byte at SP - 1, and SP moved there. -/
def pushed (v : Byte) (s : State) : State := (s.setMem (s.mem.write (s.sp.toNat - 1) v)).setReg spReg (s.sp - 1)

@[simp] theorem sp_pushed (v : Byte) : (pushed v s).sp = s.sp - 1 := by simp [pushed]

theorem reg_pushed_other (v : Byte) {r : RegIndex} (h : r ≠ spReg) : (pushed v s).reg r = s.reg r :=
  State.reg_setReg_other _ _ _ _ h

theorem sp_sub_toNat {s : State} (h : s.sp ≠ 0) : (s.sp - 1).toNat = s.sp.toNat - 1 := by
  have hp : 0 < s.sp.toNat := Nat.pos_of_ne_zero fun hc => h (BitVec.eq_of_toNat_eq hc)
  have hlt := s.sp.isLt
  have h1 : (1 : Byte).toNat = 1 := rfl
  rw [BitVec.toNat_sub]
  omega

theorem push_ok (v : Byte) (h : s.sp ≠ 0) : push v s = .ok (pushed v s) := by
  have hp : 0 < s.sp.toNat := Nat.pos_of_ne_zero fun hc => h (BitVec.eq_of_toNat_eq hc)
  have hlt := s.sp.isLt
  have haddr : (pushAddr s).toNat = s.sp.toNat - 1 := by unfold pushAddr; omega
  have hin : inRange (pushAddr s) := by unfold pushAddr; constructor <;> omega
  unfold push
  rw [memWrite_inside s v hin, except_bind_ok, haddr]
  have : BitVec.ofInt 8 (pushAddr s) = s.sp - 1 := by
    apply BitVec.eq_of_toNat_eq
    have h1 : (1 : Byte).toNat = 1 := rfl
    simp only [pushAddr, BitVec.toNat_ofInt, BitVec.toNat_sub]
    omega
  rw [this]; rfl

theorem push_error (v : Byte) (h : s.sp = 0) : push v s = .error (.outOfBounds (-1)) := by
  have haddr : pushAddr s = -1 := by simp [pushAddr, h]
  unfold push
  rw [haddr, memWrite_outside s v (by decide)]; rfl

/-- A push stores below SP and moves SP, or raises OutOfBounds(-1) when SP = 0 (R44). -/
theorem push_cases (v : Byte) :
    (s.sp ≠ 0 ∧ push v s = .ok (pushed v s)) ∨ (s.sp = 0 ∧ push v s = .error (.outOfBounds (-1))) := by
  by_cases h : s.sp = 0
  · exact .inr ⟨h, push_error s v h⟩
  · exact .inl ⟨h, push_ok s v h⟩

theorem pop_ok (h : s.sp ≠ 255) : pop s = .ok (s.mem.read s.sp.toNat, s.setReg spReg (s.sp + 1)) := by
  have hne : ¬ s.sp.toNat = 255 := fun hc => h (BitVec.eq_of_toNat_eq hc)
  unfold pop
  rw [memRead_byte, except_bind_ok, if_neg hne]
  simp [BitVec.ofNat_add]

theorem pop_error (h : s.sp = 255) : pop s = .error (.outOfBounds 256) := by
  unfold pop
  rw [memRead_byte, except_bind_ok, if_pos (by simp [h])]

/-- A pop reads at SP and moves SP up, or raises OutOfBounds(256) when SP = 255 (R45). -/
theorem pop_cases :
    (s.sp ≠ 255 ∧ pop s = .ok (s.mem.read s.sp.toNat, s.setReg spReg (s.sp + 1))) ∨
      (s.sp = 255 ∧ pop s = .error (.outOfBounds 256)) := by
  by_cases h : s.sp = 255
  · exact .inr ⟨h, pop_error s h⟩
  · exact .inl ⟨h, pop_ok s h⟩

/-! ### The ALU -/

@[simp] theorem aluDiv_zero (x : Byte) : aluDiv x 0 = .error .divisionByZero := rfl
@[simp] theorem aluMod_zero (x : Byte) : aluMod x 0 = .error .divisionByZero := rfl

theorem aluDiv_nonzero (x : Byte) {y : Byte} (h : y ≠ 0) : aluDiv x y = .ok (BitVec.ofNat 8 (x.toNat / y.toNat)) :=
  if_neg h

theorem aluMod_nonzero (x : Byte) {y : Byte} (h : y ≠ 0) : aluMod x y = .ok (BitVec.ofNat 8 (x.toNat % y.toNat)) :=
  if_neg h

/-- The ALU answers a result for every operation but CMP, and its one error is DivisionByZero, of DIV and MOD by 0
(R112, R113). -/
theorem aluApply_cases (op : AluOp) (x y : Byte) :
    (op ≠ .cmp ∧ ∃ v, aluApply op x y = .ok (.result v)) ∨
      (op = .cmp ∧ aluApply op x y = .ok (.flagOutcome (compareFlag x y))) ∨
      ((op = .div ∨ op = .mod) ∧ y = 0 ∧ aluApply op x y = .error .divisionByZero) := by
  cases op
  case cmp => exact .inr (.inl ⟨rfl, rfl⟩)
  case div =>
    by_cases h : y = 0
    · exact .inr (.inr ⟨.inl rfl, h, by subst h; rfl⟩)
    · exact .inl ⟨nofun, _, by simp only [aluApply, aluDiv_nonzero _ h]; rfl⟩
  case mod =>
    by_cases h : y = 0
    · exact .inr (.inr ⟨.inr rfl, h, by subst h; rfl⟩)
    · exact .inl ⟨nofun, _, by simp only [aluApply, aluMod_nonzero _ h]; rfl⟩
  all_goals exact .inl ⟨nofun, _, rfl⟩

end Sys2Proof.Machine
end

