-- ==== Sys2Proof/Laws/Exec.lean ====
section
/-! SUPPORT. What executing an instruction can do, said once: `exec_cases` and `exec_inv`. Every execution answers a next
state, which is the fatal entry from the state it began in or the effect `Done` gives the instruction. -/

namespace Sys2Proof.Machine

/-- The fatal entry is the record claims are stated with (R152). -/
theorem enterFatal_eq_fatal (e : Raise) (s : State) : enterFatal e s = s.fatal e.kind := rfl

theorem Raise.kind_ne_none (e : Raise) : e.kind ≠ .none := by cases e <;> simp [Raise.kind]

theorem Raise.kind_supported {e : Raise} (h : e ≠ .unsupportedOperation) : e.kind ≠ .unsupportedOperation := by
  cases e <;> simp_all [Raise.kind]

/-- The effect of a two-register ALU instruction that completes (R114). -/
def AluDone (op : AluOp) (a b : RegOperand) (s t : State) : Prop :=
  ∃ r q v, a = RegIndex.operand r ∧ b = RegIndex.operand q ∧
    aluApply op (s.reg r) (s.reg q) = .ok (.result v) ∧ s.pc.toNat ≤ 252 ∧ t = (s.setReg r v).setPc (s.pc + 3)

/-- The effect of a conditional jump that completes (R133, R134). -/
def JumpDone (taken : Bool) (a : RegOperand) (s t : State) : Prop :=
  ∃ r, a = RegIndex.operand r ∧
    ((taken = true ∧ t = s.setPc (s.reg r)) ∨ (taken = false ∧ s.pc.toNat ≤ 253 ∧ t = s.setPc (s.pc + 2)))

/-- The effect of an instruction that completes, one shape per handler (R90 to R140). -/
def Done (i : Instr) (s t : State) : Prop :=
  match i with
  | .hlt => t = s.stop
  | .ldi a b => ∃ r, a = RegIndex.operand r ∧ s.pc.toNat ≤ 252 ∧ t = (s.setReg r b).setPc (s.pc + 3)
  | .prn a => ∃ r, a = RegIndex.operand r ∧ s.pc.toNat ≤ 253 ∧ t = (s.emit (s.reg r)).setPc (s.pc + 2)
  | .push a => ∃ r, a = RegIndex.operand r ∧ s.pc.toNat ≤ 253 ∧ s.sp ≠ 0 ∧
      t = (pushed (s.reg r) s).setPc (s.pc + 2)
  | .pop a => ∃ r, a = RegIndex.operand r ∧ s.pc.toNat ≤ 253 ∧ s.sp ≠ 255 ∧
      t = ((s.setReg spReg (s.sp + 1)).setReg r (s.mem.read s.sp.toNat)).setPc (s.pc + 2)
  | .call a => ∃ r, a = RegIndex.operand r ∧ s.pc.toNat ≤ 253 ∧ s.sp ≠ 0 ∧
      t = (pushed (s.pc + 2) s).setPc (s.reg r)
  | .ret => s.sp ≠ 255 ∧ t = (s.setReg spReg (s.sp + 1)).setPc (s.mem.read s.sp.toNat)
  | .cmp a b => ∃ r q, a = RegIndex.operand r ∧ b = RegIndex.operand q ∧ s.pc.toNat ≤ 252 ∧
      t = (s.setFl (compareFlag (s.reg r) (s.reg q))).setPc (s.pc + 3)
  | .jmp a => ∃ r, a = RegIndex.operand r ∧ t = s.setPc (s.reg r)
  | .jeq a => JumpDone s.fl.isEqual a s t
  | .jne a => JumpDone (!s.fl.isEqual) a s t
  | .not a => ∃ r, a = RegIndex.operand r ∧ s.pc.toNat ≤ 253 ∧
      t = (s.setReg r (aluNot (s.reg r))).setPc (s.pc + 2)
  | .add a b => AluDone .add a b s t
  | .sub a b => AluDone .sub a b s t
  | .mul a b => AluDone .mul a b s t
  | .div a b => AluDone .div a b s t
  | .mod a b => AluDone .mod a b s t
  | .and a b => AluDone .and a b s t
  | .or a b => AluDone .or a b s t
  | .xor a b => AluDone .xor a b s t
  | .shl a b => AluDone .shl a b s t
  | .shr a b => AluDone .shr a b s t

/-- A cycle's end is the fatal entry, by an error that can occur, or a state with the effect `P`. -/
def Ends (_s : State) (r : Except Raise State) (P : State → Prop) : Prop :=
  (∃ e, e ≠ .unsupportedOperation ∧ r = .error e) ∨ ∃ t, P t ∧ r = .ok t

theorem ends_error {s : State} {e : Raise} {P : State → Prop} (h : e ≠ .unsupportedOperation) : Ends s (.error e) P :=
  .inl ⟨e, h, rfl⟩

theorem ends_ok {s t : State} {P : State → Prop} (h : P t) : Ends s (.ok t) P := .inr ⟨t, h, rfl⟩

theorem ends_advance {n : Nat} {s t : State} {P : State → Prop}
    (h : s.pc.toNat + n ≤ 255 → P (t.setPc (s.pc + BitVec.ofNat 8 n))) (hpc : t.pc = s.pc := by rfl) :
    Ends s (advance n t) P := by
  rcases advance_cases t n with ⟨hn, he⟩ | ⟨_, he⟩
  · rw [he, hpc]; exact ends_ok (h (hpc ▸ hn))
  · rw [he]; exact ends_error (by nofun)

theorem ends_checkReg (a : RegOperand) (s : State) (f : RegIndex → Except Raise State) (P : State → Prop)
    (h : ∀ r, a = RegIndex.operand r → Ends s (f r) P) : Ends s (checkReg a >>= f) P := by
  rcases checkReg_cases a with ⟨r, hr, he⟩ | ⟨_, he⟩
  · rw [he, except_bind_ok]; exact h r hr
  · rw [he, except_bind_error]; exact ends_error (by nofun)

theorem ends_push (v : Byte) (s : State) (f : State → Except Raise State) (P : State → Prop)
    (h : s.sp ≠ 0 → Ends s (f (pushed v s)) P) : Ends s (push v s >>= f) P := by
  rcases push_cases s v with ⟨hs, he⟩ | ⟨_, he⟩
  · rw [he, except_bind_ok]; exact h hs
  · rw [he, except_bind_error]; exact ends_error (by nofun)

theorem ends_pop (s : State) (f : Byte × State → Except Raise State) (P : State → Prop)
    (h : s.sp ≠ 255 → Ends s (f (s.mem.read s.sp.toNat, s.setReg spReg (s.sp + 1))) P) : Ends s (pop s >>= f) P := by
  rcases pop_cases s with ⟨hs, he⟩ | ⟨_, he⟩
  · rw [he, except_bind_ok]; exact h hs
  · rw [he, except_bind_error]; exact ends_error (by nofun)

theorem checkRegs_bind (a b : RegOperand) (f : RegIndex × RegIndex → Except Raise State) :
    (checkRegs a b >>= f) = checkReg a >>= fun r => checkReg b >>= fun q => f (r, q) := by
  unfold checkRegs
  rcases checkReg_cases a with ⟨r, _, he⟩ | ⟨_, he⟩ <;> rcases checkReg_cases b with ⟨q, _, hb⟩ | ⟨_, hb⟩ <;>
    simp only [he, hb, except_bind_ok, except_bind_error]

theorem ends_aluTwoReg (op : AluOp) (hop : op ≠ .cmp) (a b : RegOperand) (s : State) :
    Ends s (aluTwoReg op a b s) (AluDone op a b s) := by
  unfold aluTwoReg
  rw [checkRegs_bind]
  refine ends_checkReg a s _ _ fun r hr => ends_checkReg b s _ _ fun q hq => ?_
  rcases aluApply_cases op (s.reg r) (s.reg q) with ⟨_, v, he⟩ | ⟨hc, _⟩ | ⟨_, _, he⟩
  · rw [he, except_bind_ok]
    exact ends_advance fun hpc => ⟨r, q, v, hr, hq, he, by omega, rfl⟩
  · exact absurd hc hop
  · rw [he, except_bind_error]; exact ends_error (by nofun)

theorem ends_cmp (a b : RegOperand) (s : State) : Ends s (aluTwoReg .cmp a b s) (Done (.cmp a b) s) := by
  unfold aluTwoReg
  rw [checkRegs_bind]
  refine ends_checkReg a s _ _ fun r hr => ends_checkReg b s _ _ fun q hq => ?_
  exact ends_advance (t := s.setFl (compareFlag (s.reg r) (s.reg q))) fun hpc => ⟨r, q, hr, hq, by omega, rfl⟩

theorem ends_jumpIf (taken : Bool) (a : RegOperand) (s : State) : Ends s (jumpIf taken a s) (JumpDone taken a s) := by
  unfold jumpIf
  refine ends_checkReg a s _ _ fun r hr => ?_
  cases taken
  · exact ends_advance fun hpc => ⟨r, hr, .inr ⟨rfl, by omega, rfl⟩⟩
  · exact .inr ⟨_, ⟨r, hr, .inl ⟨rfl, rfl⟩⟩, rfl⟩

theorem Ends.complete {s : State} {r : Except Raise State} {P : State → Prop} (h : Ends s r P) :
    (∃ e, e ≠ .unsupportedOperation ∧ complete s r = .next (enterFatal e s)) ∨ ∃ t, P t ∧ complete s r = .next t := by
  rcases h with ⟨e, he, rfl⟩ | ⟨t, hP, rfl⟩
  · exact .inl ⟨e, he, rfl⟩
  · exact .inr ⟨t, hP, rfl⟩

/-- Executing an instruction answers the fatal entry or its own effect, and nothing else (R152, R153). -/
theorem exec_cases (i : Instr) (s : State) :
    (∃ e, e ≠ .unsupportedOperation ∧ exec i s = .next (enterFatal e s)) ∨ ∃ t, Done i s t ∧ exec i s = .next t := by
  cases i with
  | hlt => exact .inr ⟨_, rfl, rfl⟩
  | ldi a b =>
    exact Ends.complete <| ends_checkReg a s _ _ fun r hr =>
      ends_advance fun hpc => ⟨r, hr, by omega, rfl⟩
  | prn a =>
    exact Ends.complete <| ends_checkReg a s _ _ fun r hr =>
      ends_advance fun hpc => ⟨r, hr, by omega, rfl⟩
  | push a =>
    exact Ends.complete <| ends_checkReg a s _ _ fun r hr => ends_push _ s _ _ fun hs =>
      ends_advance fun hpc => ⟨r, hr, by omega, hs, rfl⟩
  | pop a =>
    exact Ends.complete <| ends_checkReg a s _ _ fun r hr => ends_pop s _ _ fun hs =>
      ends_advance fun hpc => ⟨r, hr, by omega, hs, rfl⟩
  | call a =>
    refine Ends.complete <| ends_checkReg a s _ _ fun r hr => ?_
    rcases returnAddress_cases s with ⟨hpc, he⟩ | ⟨_, he⟩
    · rw [he, except_bind_ok]
      exact ends_push _ s _ _ fun hs => .inr ⟨_, ⟨r, hr, hpc, hs, rfl⟩, rfl⟩
    · rw [he, except_bind_error]; exact ends_error (by nofun)
  | ret => exact Ends.complete <| ends_pop s _ _ fun hs => .inr ⟨_, ⟨hs, rfl⟩, rfl⟩
  | cmp a b => exact (ends_cmp a b s).complete
  | jmp a => exact Ends.complete <| ends_checkReg a s _ _ fun r hr => .inr ⟨_, ⟨r, hr, rfl⟩, rfl⟩
  | jeq a => exact (ends_jumpIf _ a s).complete
  | jne a => exact (ends_jumpIf _ a s).complete
  | not a =>
    exact Ends.complete <| ends_checkReg a s _ _ fun r hr =>
      ends_advance (t := s.setReg r (aluNot (s.reg r))) fun hpc => ⟨r, hr, by omega, rfl⟩
  | add a b => exact (ends_aluTwoReg .add nofun a b s).complete
  | sub a b => exact (ends_aluTwoReg .sub nofun a b s).complete
  | mul a b => exact (ends_aluTwoReg .mul nofun a b s).complete
  | div a b => exact (ends_aluTwoReg .div nofun a b s).complete
  | mod a b => exact (ends_aluTwoReg .mod nofun a b s).complete
  | and a b => exact (ends_aluTwoReg .and nofun a b s).complete
  | or a b => exact (ends_aluTwoReg .or nofun a b s).complete
  | xor a b => exact (ends_aluTwoReg .xor nofun a b s).complete
  | shl a b => exact (ends_aluTwoReg .shl nofun a b s).complete
  | shr a b => exact (ends_aluTwoReg .shr nofun a b s).complete

/-- The inversion of `exec`, for proofs about the state it answers. -/
theorem exec_inv {i : Instr} {s t : State} (h : exec i s = .next t) :
    (∃ e, e ≠ .unsupportedOperation ∧ t = enterFatal e s) ∨ Done i s t := by
  rcases exec_cases i s with ⟨e, he, hx⟩ | ⟨u, hd, hx⟩ <;> rw [hx] at h <;> cases h
  · exact .inl ⟨e, he, rfl⟩
  · exact .inr hd

/-! ### What a completed instruction does to each kind of state -/

/-- Only HLT changes the status, and only RUNNING (R20, R21). -/
theorem Done.status {i : Instr} {s t : State} (h : Done i s t) :
    t.err = s.err ∧ t.errpc = s.errpc ∧ (t.running = s.running ∨ (i = .hlt ∧ t = s.stop)) := by
  cases i <;> simp only [Done, AluDone, JumpDone] at h
  case hlt => subst h; exact ⟨rfl, rfl, .inr ⟨rfl, rfl⟩⟩
  case ldi | not | prn => obtain ⟨r, rfl, -, rfl⟩ := h; exact ⟨rfl, rfl, .inl rfl⟩
  case push | pop | call => obtain ⟨r, rfl, -, -, rfl⟩ := h; exact ⟨rfl, rfl, .inl rfl⟩
  case ret => obtain ⟨-, rfl⟩ := h; exact ⟨rfl, rfl, .inl rfl⟩
  case cmp => obtain ⟨r, q, rfl, rfl, -, rfl⟩ := h; exact ⟨rfl, rfl, .inl rfl⟩
  case jmp => obtain ⟨r, rfl, rfl⟩ := h; exact ⟨rfl, rfl, .inl rfl⟩
  case jeq | jne => obtain ⟨r, rfl, ⟨-, rfl⟩ | ⟨-, -, rfl⟩⟩ := h <;> exact ⟨rfl, rfl, .inl rfl⟩
  all_goals obtain ⟨r, q, v, rfl, rfl, -, -, rfl⟩ := h; exact ⟨rfl, rfl, .inl rfl⟩

/-- Only PUSH and CALL change memory, by a push (R43). -/
theorem Done.mem {i : Instr} {s t : State} (h : Done i s t) :
    t.mem = s.mem ∨
      ((i.mnemonic = .push ∨ i.mnemonic = .call) ∧ s.sp ≠ 0 ∧ ∃ v, t.mem = (pushed v s).mem) := by
  cases i <;> simp only [Done, AluDone, JumpDone] at h
  case hlt => subst h; exact .inl rfl
  case ldi | not | prn => obtain ⟨r, rfl, -, rfl⟩ := h; exact .inl rfl
  case push => obtain ⟨r, rfl, -, hs, rfl⟩ := h; exact .inr ⟨.inl rfl, hs, _, rfl⟩
  case call => obtain ⟨r, rfl, -, hs, rfl⟩ := h; exact .inr ⟨.inr rfl, hs, _, rfl⟩
  case pop => obtain ⟨r, rfl, -, -, rfl⟩ := h; exact .inl rfl
  case ret => obtain ⟨-, rfl⟩ := h; exact .inl rfl
  case cmp => obtain ⟨r, q, rfl, rfl, -, rfl⟩ := h; exact .inl rfl
  case jmp => obtain ⟨r, rfl, rfl⟩ := h; exact .inl rfl
  case jeq | jne => obtain ⟨r, rfl, ⟨-, rfl⟩ | ⟨-, -, rfl⟩⟩ := h <;> exact .inl rfl
  all_goals obtain ⟨r, q, v, rfl, rfl, -, -, rfl⟩ := h; exact .inl rfl

/-- Only CMP changes FL, to the outcome of a comparison (R19). -/
theorem Done.fl {i : Instr} {s t : State} (h : Done i s t) :
    t.fl = s.fl ∨ (i.mnemonic = .cmp ∧ ∃ x y, t.fl = compareFlag x y) := by
  cases i <;> simp only [Done, AluDone, JumpDone] at h
  case hlt => subst h; exact .inl rfl
  case ldi | not | prn => obtain ⟨r, rfl, -, rfl⟩ := h; exact .inl rfl
  case push | call | pop => obtain ⟨r, rfl, -, -, rfl⟩ := h; exact .inl rfl
  case ret => obtain ⟨-, rfl⟩ := h; exact .inl rfl
  case cmp => obtain ⟨r, q, rfl, rfl, -, rfl⟩ := h; exact .inr ⟨rfl, _, _, rfl⟩
  case jmp => obtain ⟨r, rfl, rfl⟩ := h; exact .inl rfl
  case jeq | jne => obtain ⟨r, rfl, ⟨-, rfl⟩ | ⟨-, -, rfl⟩⟩ := h <;> exact .inl rfl
  all_goals obtain ⟨r, q, v, rfl, rfl, -, -, rfl⟩ := h; exact .inl rfl

/-- Only PRN changes OUT, by its register's byte (R27). -/
theorem Done.out {i : Instr} {s t : State} (h : Done i s t) :
    t.out = s.out ∨ ∃ r : RegIndex, i = .prn r.operand ∧ t.out = s.out ++ [s.reg r] := by
  cases i <;> simp only [Done, AluDone, JumpDone] at h
  case hlt => subst h; exact .inl rfl
  case prn => obtain ⟨r, rfl, -, rfl⟩ := h; exact .inr ⟨r, rfl, rfl⟩
  case ldi | not => obtain ⟨r, rfl, -, rfl⟩ := h; exact .inl rfl
  case push | call | pop => obtain ⟨r, rfl, -, -, rfl⟩ := h; exact .inl rfl
  case ret => obtain ⟨-, rfl⟩ := h; exact .inl rfl
  case cmp => obtain ⟨r, q, rfl, rfl, -, rfl⟩ := h; exact .inl rfl
  case jmp => obtain ⟨r, rfl, rfl⟩ := h; exact .inl rfl
  case jeq | jne => obtain ⟨r, rfl, ⟨-, rfl⟩ | ⟨-, -, rfl⟩⟩ := h <;> exact .inl rfl
  all_goals obtain ⟨r, q, v, rfl, rfl, -, -, rfl⟩ := h; exact .inl rfl

theorem compareFlag_ne_unset (x y : Byte) : compareFlag x y ≠ .unset := by
  unfold compareFlag
  split
  · nofun
  · split <;> nofun

/-! ### Completion of the shared handlers -/

/-- The common handler completes when the ALU gives a result and the advance stays in memory (R114). -/
theorem aluTwoReg_ok (op : AluOp) (r q : RegIndex) {v : Byte} {s : State} (h : s.pc.toNat ≤ 252)
    (hv : aluApply op (s.reg r) (s.reg q) = .ok (.result v)) :
    aluTwoReg op r.operand q.operand s = .ok ((s.setReg r v).setPc (s.pc + 3)) := by
  unfold aluTwoReg
  rw [checkRegs_bind, checkReg_operand, except_bind_ok, checkReg_operand, except_bind_ok]
  show (aluApply op (s.reg r) (s.reg q) >>= _) = _
  rw [hv, except_bind_ok]
  exact advance_ok (s.setReg r v) (by show s.pc.toNat + 3 ≤ 255; omega)

theorem complete_advance_error (n : Nat) {s t : State} (hpc : t.pc = s.pc) (h : 255 < s.pc.toNat + n) :
    complete s (advance n t) = .next (s.fatal .outOfBounds) := by
  rw [advance_error t (by rw [hpc]; exact h)]; rfl

/-- The common handler raises OutOfBounds when only the advance leaves memory (R114, R16). -/
theorem aluTwoReg_advance_error (op : AluOp) (r q : RegIndex) {o : AluOutput} {s : State} (h : 252 < s.pc.toNat)
    (hv : aluApply op (s.reg r) (s.reg q) = .ok o) :
    complete s (aluTwoReg op r.operand q.operand s) = .next (s.fatal .outOfBounds) := by
  unfold aluTwoReg
  rw [checkRegs_bind, checkReg_operand, except_bind_ok, checkReg_operand, except_bind_ok]
  show complete s (aluApply op (s.reg r) (s.reg q) >>= _) = _
  rw [hv, except_bind_ok]
  exact complete_advance_error 3 (by cases o <;> rfl) (by omega)

end Sys2Proof.Machine
end

