-- ==== Sys2Proof/Laws/Decode.lean ====
section
/-! SUPPORT. The decoder's small lemmas, what a cycle's fetch sees, and the inversion of a cycle. -/

namespace Sys2Proof

theorem Mnemonic.mem_all (m : Mnemonic) : m ∈ Mnemonic.all := by cases m <;> decide

@[simp] theorem Mnemonic.mnemonic_assemble (m : Mnemonic) (a b : Byte) : (m.assemble a b).mnemonic = m := by
  cases m <;> rfl

/-- The operand bytes of an assembled instruction are the first `arity` of the two it was given (R62). -/
theorem Mnemonic.operands_assemble (m : Mnemonic) (a b : Byte) : (m.assemble a b).operands = [a, b].take m.arity := by
  cases m <;> rfl

/-- A table lookup that succeeds names a row of the table with that opcode (R63). -/
theorem lookup_some {c : Config} {op : Byte} {m : Mnemonic} (h : lookup c op = some m) :
    c.inTable m = true ∧ c.opcodeMap m = op := by
  have := List.find?_some h
  simpa using this

/-- A table lookup fails exactly on a byte that is no row's opcode (R63, R72). -/
theorem lookup_none {c : Config} {op : Byte} :
    lookup c op = none ↔ ∀ m, c.inTable m = true → c.opcodeMap m ≠ op := by
  simp [lookup, Mnemonic.mem_all]

/-- A table lookup finds the row of a valid configuration whose opcode it is given (R71). -/
theorem lookup_valid {c : Config} (hc : c.Valid) {m : Mnemonic} (hm : c.inTable m = true) :
    lookup c (c.opcodeMap m) = some m := by
  cases h : lookup c (c.opcodeMap m) with
  | none => exact absurd rfl (lookup_none.mp h m hm)
  | some n => rw [hc n m (lookup_some h).1 hm (lookup_some h).2]

/-- What `decode` accepts: the row of the first byte, assembled from the bytes after it. -/
theorem decode_ok {c : Config} {op : Byte} {rest : List Byte} {i : Instr} (h : decode c (op :: rest) = .ok i) :
    lookup c op = some i.mnemonic ∧ i.mnemonic.arity ≤ rest.length ∧
      i = i.mnemonic.assemble (rest.getD 0 0) (rest.getD 1 0) := by
  simp only [decode] at h
  split at h
  · cases h
  · rename_i m hm
    split at h
    · cases h
    · rename_i hlen
      cases h
      rw [Mnemonic.mnemonic_assemble]
      exact ⟨hm, by omega, rfl⟩

end Sys2Proof

namespace Sys2Proof.Machine

theorem memRead_nat {k : Nat} (s : State) (h : k ≤ 255) : memRead (k : Int) s = .ok (s.mem.read k) := by
  unfold memRead
  rw [if_pos ⟨by omega, by omega⟩, Int.toNat_natCast]

theorem memRead_nat_outside {k : Nat} (s : State) (h : 255 < k) : memRead (k : Int) s = .error (.outOfBounds k) :=
  memRead_outside s fun hc => by have := hc.2; omega

/-- The bytes a fetch sees: the opcode, and the operand bytes whose addresses exist (R61, R62). -/
theorem fetchWindow_eq (s : State) :
    fetchWindow s = s.mem.read s.pc.toNat ::
      ((if s.pc.toNat + 1 ≤ 255 then [s.mem.read (s.pc.toNat + 1)] else []) ++
        (if s.pc.toNat + 2 ≤ 255 then [s.mem.read (s.pc.toNat + 2)] else [])) := by
  have h0 := s.pc.isLt
  have e0 : (memRead ((s.pc.toNat + 0 : Nat) : Int) s).toOption = some (s.mem.read s.pc.toNat) := by
    rw [memRead_nat s (by omega)]; rfl
  by_cases h1 : s.pc.toNat + 1 ≤ 255 <;> by_cases h2 : s.pc.toNat + 2 ≤ 255
  · simp only [fetchWindow, List.filterMap, e0, memRead_nat s h1, memRead_nat s h2, if_pos h1, if_pos h2]; rfl
  · simp only [fetchWindow, List.filterMap, e0, memRead_nat s h1, memRead_nat_outside s (Nat.lt_of_not_le h2), if_pos h1,
      if_neg h2]; rfl
  · omega
  · simp only [fetchWindow, List.filterMap, e0, memRead_nat_outside s (Nat.lt_of_not_le h1),
      memRead_nat_outside s (Nat.lt_of_not_le h2), if_neg h1, if_neg h2]; rfl

/-- Byte `k` of the fetch window is the byte at `pc + k`, where that address exists. -/
theorem fetchWindow_getElem? {k : Nat} (s : State) (hk : k < 3) (h : s.pc.toNat + k ≤ 255) :
    (fetchWindow s)[k]? = some (s.mem.read (s.pc.toNat + k)) := by
  rw [fetchWindow_eq]
  match k with
  | 0 => rfl
  | 1 => rw [if_pos h]; rfl
  | 2 => rw [if_pos (Nat.le_trans (Nat.le_succ _) h), if_pos h]; rfl

theorem cycle_halted (c : Config) {s : State} (h : s.running = false) : cycle c s = .next s := by
  simp [cycle, h]

/-- A running machine's cycle, as R60 writes it. -/
theorem cycle_running (c : Config) {s : State} (hr : s.running = true) :
    cycle c s = match decode c (fetchWindow s) with
      | .error r => .next (enterFatal (fetchError r) s)
      | .ok i => exec i s :=
  if_pos hr

theorem cycle_rejected {c : Config} {s : State} {r : DecodeReject} (hr : s.running = true)
    (hd : decode c (fetchWindow s) = .error r) : cycle c s = .next (enterFatal (fetchError r) s) := by
  rw [cycle_running c hr, hd]

theorem fetchError_supported (r : DecodeReject) : fetchError r ≠ .unsupportedOperation := by cases r <;> nofun

/-- What a cycle can answer (R60): nothing while halted, the fatal entry, or the effect of the instruction whose opcode
stands at `pc`. -/
theorem cycle_inv {c : Config} {s t : State} (h : cycle c s = .next t) :
    (s.running = false ∧ t = s) ∨
      (s.running = true ∧ ((∃ e, e ≠ .unsupportedOperation ∧ t = enterFatal e s) ∨
        ∃ i, decode c (fetchWindow s) = .ok i ∧ c.inTable i.mnemonic = true ∧
          c.opcodeMap i.mnemonic = s.mem.read s.pc.toNat ∧ Done i s t)) := by
  cases hr : s.running
  · rw [cycle_halted c hr] at h; cases h
    exact .inl ⟨rfl, rfl⟩
  · refine .inr ⟨rfl, ?_⟩
    cases hd : decode c (fetchWindow s) with
    | error r =>
      rw [cycle_rejected hr hd] at h; cases h
      exact .inl ⟨_, fetchError_supported r, rfl⟩
    | ok i =>
      rw [cycle_running c hr, hd] at h
      refine (exec_inv h).imp_right fun hdone => ⟨i, rfl, ?_, ?_, hdone⟩
      · rw [fetchWindow_eq] at hd; exact (lookup_some (decode_ok hd).1).1
      · rw [fetchWindow_eq] at hd; exact (lookup_some (decode_ok hd).1).2

end Sys2Proof.Machine
end

