-- ==== Sys2Proof/Laws/PerInstr.lean ====
section
/-! SUPPORT. A family of per-instruction lemmas: the shape of an encoding (R67). -/

namespace Sys2Proof.Laws.EncodeShape

/-- An instruction's encoding is its row's opcode byte and as many operand bytes as the row's arity says
(R67, R69). -/
def Statement (i : Instr) : Prop :=
  i.operands.length = i.mnemonic.arity ∧
    ∀ c : Config, (encode c i).length = i.length ∧ (encode c i).head? = some (c.opcodeMap i.mnemonic)

theorem hlt : Statement .hlt := ⟨rfl, fun _ => ⟨rfl, rfl⟩⟩
theorem ldi (a : RegOperand) (b : Byte) : Statement (.ldi a b) := ⟨rfl, fun _ => ⟨rfl, rfl⟩⟩
theorem prn (a : RegOperand) : Statement (.prn a) := ⟨rfl, fun _ => ⟨rfl, rfl⟩⟩
theorem mul (a b : RegOperand) : Statement (.mul a b) := ⟨rfl, fun _ => ⟨rfl, rfl⟩⟩
theorem push (a : RegOperand) : Statement (.push a) := ⟨rfl, fun _ => ⟨rfl, rfl⟩⟩
theorem pop (a : RegOperand) : Statement (.pop a) := ⟨rfl, fun _ => ⟨rfl, rfl⟩⟩
theorem call (a : RegOperand) : Statement (.call a) := ⟨rfl, fun _ => ⟨rfl, rfl⟩⟩
theorem ret : Statement .ret := ⟨rfl, fun _ => ⟨rfl, rfl⟩⟩
theorem cmp (a b : RegOperand) : Statement (.cmp a b) := ⟨rfl, fun _ => ⟨rfl, rfl⟩⟩
theorem jmp (a : RegOperand) : Statement (.jmp a) := ⟨rfl, fun _ => ⟨rfl, rfl⟩⟩
theorem jeq (a : RegOperand) : Statement (.jeq a) := ⟨rfl, fun _ => ⟨rfl, rfl⟩⟩
theorem jne (a : RegOperand) : Statement (.jne a) := ⟨rfl, fun _ => ⟨rfl, rfl⟩⟩
theorem add (a b : RegOperand) : Statement (.add a b) := ⟨rfl, fun _ => ⟨rfl, rfl⟩⟩
theorem sub (a b : RegOperand) : Statement (.sub a b) := ⟨rfl, fun _ => ⟨rfl, rfl⟩⟩
theorem div (a b : RegOperand) : Statement (.div a b) := ⟨rfl, fun _ => ⟨rfl, rfl⟩⟩
theorem mod (a b : RegOperand) : Statement (.mod a b) := ⟨rfl, fun _ => ⟨rfl, rfl⟩⟩
theorem and (a b : RegOperand) : Statement (.and a b) := ⟨rfl, fun _ => ⟨rfl, rfl⟩⟩
theorem or (a b : RegOperand) : Statement (.or a b) := ⟨rfl, fun _ => ⟨rfl, rfl⟩⟩
theorem xor (a b : RegOperand) : Statement (.xor a b) := ⟨rfl, fun _ => ⟨rfl, rfl⟩⟩
theorem not (a : RegOperand) : Statement (.not a) := ⟨rfl, fun _ => ⟨rfl, rfl⟩⟩
theorem shl (a b : RegOperand) : Statement (.shl a b) := ⟨rfl, fun _ => ⟨rfl, rfl⟩⟩
theorem shr (a b : RegOperand) : Statement (.shr a b) := ⟨rfl, fun _ => ⟨rfl, rfl⟩⟩

end Sys2Proof.Laws.EncodeShape
end

