-- ==== Sys2Proof/Laws/Reset.lean ====
section
/-! SUPPORT. Every operation that changes memory keeps its canonical form, and reset's memory has it. -/

namespace Sys2Proof.Machine

theorem State.reset_mem_wf : Memory.wf State.reset.mem := Memory.wf_nil

theorem memWrite_wf {addr : Int} {v : Byte} {s t : State} (hs : Memory.wf s.mem) (h : memWrite addr v s = .ok t) :
    Memory.wf t.mem := by
  by_cases hin : inRange addr
  · rw [memWrite_inside s v hin] at h; cases h
    exact Memory.write_wf hs (show addr.toNat < 256 by have := hin.1; have := hin.2; omega) v
  · rw [memWrite_outside s v hin] at h; cases h

theorem pushed_wf {v : Byte} {s : State} (hs : Memory.wf s.mem) : Memory.wf (pushed v s).mem :=
  Memory.write_wf hs (show s.sp.toNat - 1 < 256 by have := s.sp.isLt; omega) v

/-- What a push does to every later read: the byte is at SP - 1 and every other address reads as before. -/
theorem read_pushed {v : Byte} {s : State} (hs : Memory.wf s.mem) (a : Nat) :
    Memory.read (pushed v s).mem a = if s.sp.toNat - 1 = a then v else s.mem.read a :=
  Memory.read_write hs _ v a

theorem placeByte_wf {addr : Nat} {v : Byte} {s : State} (hs : Memory.wf s.mem) :
    Memory.wf (placeByte addr v s).mem := by
  unfold placeByte
  split
  · rename_i t h; exact memWrite_wf hs h
  · exact hs

theorem placeBytes_wf (vs : List Byte) {addr : Nat} {s : State} (hs : Memory.wf s.mem) :
    Memory.wf (placeBytes addr vs s).mem := by
  induction vs generalizing addr s with
  | nil => exact hs
  | cons v vs ih => exact ih (placeByte_wf hs)

theorem construct_wf {img : List Byte} {t : State} (h : construct img = .next t) : Memory.wf t.mem := by
  unfold construct at h
  split at h
  · cases h; exact placeBytes_wf img State.reset_mem_wf
  · cases h

theorem placeByte_inside {addr : Nat} {v : Byte} {s : State} (h : addr ≤ 255) :
    placeByte addr v s = s.setMem (s.mem.write addr v) := by
  unfold placeByte
  rw [memWrite_inside s v ⟨by omega, by omega⟩, Int.toNat_natCast]

end Sys2Proof.Machine
end

