-- ==== Sys2Proof/Tests/Slice0.lean ====
section
/-! SUPPORT. Tests: well-formedness, decoding, one step of each instruction against the spec's vectors
(95_test_vectors.md), and a witness for the hypotheses of every statement that has some. -/

namespace Sys2Proof.Tests

open Sys2Proof Sys2Proof.Machine

/-- The reset state with `pc` moved and bytes placed there. -/
def code (pc : Byte) (bytes : List Byte) : State := placeBytes pc.toNat bytes { State.reset with pc := pc }

/-- A state with registers set. -/
def regs (rs : List (RegIndex × Byte)) (s : State) : State := rs.foldl (fun t p => t.setReg p.1 p.2) s

/-- The outcome is a next state that passes a check. -/
def answers (o : Host.Outcome State Fault Refusal) (p : State → Bool) : Bool :=
  match o with
  | .next t => p t
  | .fault _ => false
  | .refused _ => false

/-- A next state with a decidable property, from an evaluation. -/
theorem reaches (o : Host.Outcome State Fault Refusal) (P : State → Prop) [DecidablePred P]
    (h : answers o (fun t => decide (P t)) = true) : ∃ t, o = .next t ∧ P t := by
  cases o with
  | next t => exact ⟨t, rfl, of_decide_eq_true h⟩
  | fault f => exact nomatch f
  | refused r => exact absurd h Bool.false_ne_true

/-- The outcome is the machine halted with an error, everything else as in `s` (R152). -/
def halts (s : State) (k : ErrKind) : Bool :=
  answers (step s) fun t => decide (t = { s with running := false, err := k, errpc := s.pc })

/-! ### Well-formedness refuses each kind of ill-formed term -/

theorem test_wf_accepts : (Instr.ldi 7 255).wf Config.standard = true := by decide
theorem test_wf_refuses_first_register : (Instr.ldi 8 0).wf Config.standard = false := by decide
theorem test_wf_refuses_second_register : (Instr.cmp 0 9).wf Config.standard = false := by decide
theorem test_wf_refuses_ext_row : (Instr.add 0 1).wf { Config.standard with aluExt := false } = false := by decide

/-! ### Decoding: for every constructor a word written out from R67 and R70, operand bytes above the opcode -/


theorem test_decode_hlt : decodeTableWord 8 0b00000001 = some .hlt := by decide
theorem test_decode_ldi : decodeTableWord 24 0b00000011_00000110_10000010 = some (.ldi 6 3) := by decide
theorem test_decode_prn : decodeTableWord 16 0b00000110_01000111 = some (.prn 6) := by decide
theorem test_decode_mul : decodeTableWord 24 0b00000011_00000110_10100010 = some (.mul 6 3) := by decide
theorem test_decode_push : decodeTableWord 16 0b00000110_01000101 = some (.push 6) := by decide
theorem test_decode_pop : decodeTableWord 16 0b00000110_01000110 = some (.pop 6) := by decide
theorem test_decode_call : decodeTableWord 16 0b00000110_01010000 = some (.call 6) := by decide
theorem test_decode_ret : decodeTableWord 8 0b00010001 = some .ret := by decide
theorem test_decode_cmp : decodeTableWord 24 0b00000011_00000110_10100111 = some (.cmp 6 3) := by decide
theorem test_decode_jmp : decodeTableWord 16 0b00000110_01010100 = some (.jmp 6) := by decide
theorem test_decode_jeq : decodeTableWord 16 0b00000110_01010101 = some (.jeq 6) := by decide
theorem test_decode_jne : decodeTableWord 16 0b00000110_01010110 = some (.jne 6) := by decide
theorem test_decode_add : decodeTableWord 24 0b00000011_00000110_10100000 = some (.add 6 3) := by decide
theorem test_decode_sub : decodeTableWord 24 0b00000011_00000110_10100001 = some (.sub 6 3) := by decide
theorem test_decode_div : decodeTableWord 24 0b00000011_00000110_10100011 = some (.div 6 3) := by decide
theorem test_decode_mod : decodeTableWord 24 0b00000011_00000110_10100100 = some (.mod 6 3) := by decide
theorem test_decode_and : decodeTableWord 24 0b00000011_00000110_10101000 = some (.and 6 3) := by decide
theorem test_decode_or : decodeTableWord 24 0b00000011_00000110_10101010 = some (.or 6 3) := by decide
theorem test_decode_xor : decodeTableWord 24 0b00000011_00000110_10101011 = some (.xor 6 3) := by decide
theorem test_decode_not : decodeTableWord 16 0b00000110_01101001 = some (.not 6) := by decide
theorem test_decode_shl : decodeTableWord 24 0b00000011_00000110_10101100 = some (.shl 6 3) := by decide
theorem test_decode_shr : decodeTableWord 24 0b00000011_00000110_10101101 = some (.shr 6 3) := by decide
theorem test_decode_zero_operands : decodeTableWord 8 0b10000010 = some (.ldi 0 0) := by decide
/-- V136: LS-8's LD is absent. -/
theorem test_decode_refuses_unknown : decode Config.standard [0x83, 0x00, 0x01] = .error (.unknownOpcode 0x83) := rfl
theorem test_decode_refuses_short : decode Config.standard [0x45] = .error (.operandMissing .push) := rfl
theorem test_decode_refuses_empty : decode Config.standard [] = .error .noOpcode := rfl

/-! ### One step of each instruction, from the vectors named -/

/-- V133. -/
theorem test_step_hlt : answers (step (code 0xFF [0x01])) (fun t => t.running == false && t.err == .none && t.pc == 0xFF) = true := by decide
/-- V2. -/
theorem test_step_ldi : answers (step (code 0 [0x82, 0x07, 0x20])) (fun t => t.sp == 0x20 && t.pc == 3) = true := by decide
/-- V5. -/
theorem test_halt_ldi_advance : halts (code 0xFD [0x82, 0x00, 0x08]) .outOfBounds = true := by decide
/-- V9. -/
theorem test_step_prn : answers (step (regs [(2, 0xFF)] (code 0 [0x47, 0x02]))) (fun t => t.out == [255] && t.pc == 2) = true := by decide
/-- V13. -/
theorem test_halt_prn_operand : halts (code 0xFF [0x47]) .outOfBounds = true := by decide
/-- V30. -/
theorem test_step_mul : answers (step (regs [(0, 0xFF), (1, 0xFF)] (code 0 [0xA2, 0x00, 0x01]))) (fun t => t.reg 0 == 0x01 && t.reg 1 == 0xFF && t.pc == 3) = true := by decide
/-- V97, PUSH R7. -/
theorem test_step_push : answers (step (code 0 [0x45, 0x07])) (fun t => t.mem.read 0xF3 == 0xF4 && t.sp == 0xF3 && t.pc == 2) = true := by decide
/-- V99. -/
theorem test_halt_push_overflow : halts (regs [(0, 9), (7, 0)] (code 0 [0x45, 0x00])) .outOfBounds = true := by decide
/-- V98, POP R7. -/
theorem test_step_pop : answers (step (placeBytes 0xF3 [0x40] (regs [(7, 0xF3)] (code 0 [0x46, 0x07])))) (fun t => t.sp == 0x40 && t.pc == 2) = true := by decide
/-- V101. -/
theorem test_halt_pop_underflow : halts (regs [(7, 0xFF)] (code 0 [0x46, 0x00])) .outOfBounds = true := by decide
/-- V111, CALL R7. -/
theorem test_step_call : answers (step (code 0x06 [0x50, 0x07])) (fun t => t.mem.read 0xF3 == 0x08 && t.sp == 0xF3 && t.pc == 0xF4) = true := by decide
/-- V109. -/
theorem test_halt_call_return_address : halts (regs [(1, 0x18)] (code 0xFE [0x50, 0x01])) .outOfBounds = true := by decide
/-- V114. -/
theorem test_step_ret : answers (step (placeBytes 0xF3 [0x08] (regs [(7, 0xF3)] (code 0xFF [0x11])))) (fun t => t.sp == 0xF4 && t.pc == 0x08) = true := by decide
/-- V89. -/
theorem test_step_cmp_greater : answers (step (regs [(0, 0x80), (1, 0x7F)] (code 0 [0xA7, 0x00, 0x01]))) (fun t => t.fl == .greater && t.pc == 3) = true := by decide
/-- V90. -/
theorem test_step_cmp_less : answers (step (regs [(1, 0xFF)] (code 0 [0xA7, 0x00, 0x01]))) (fun t => t.fl == .less && t.pc == 3) = true := by decide
/-- V117. -/
theorem test_step_jmp : answers (step (regs [(2, 0x20)] (code 0xFE [0x54, 0x02]))) (fun t => t.pc == 0x20) = true := by decide
/-- V120. -/
theorem test_step_jeq_unset : answers (step (regs [(2, 0x30)] (code 0x10 [0x55, 0x02]))) (fun t => t.pc == 0x12) = true := by decide
/-- V129. -/
theorem test_step_jeq_taken : answers (step ((regs [(2, 0x30)] (code 0xFE [0x55, 0x02])).setFl .equal)) (fun t => t.pc == 0x30) = true := by decide
/-- V124. -/
theorem test_step_jne_unset : answers (step (regs [(2, 0x30)] (code 0x10 [0x56, 0x02]))) (fun t => t.pc == 0x30) = true := by decide
/-- V131. -/
theorem test_halt_jne_bad_register : halts ((code 0x10 [0x56, 0x09]).setFl .equal) .invalidRegister = true := by decide
/-- V20. -/
theorem test_step_add : answers (step (regs [(0, 0xC8), (1, 0x64)] (code 0 [0xA0, 0x00, 0x01]))) (fun t => t.reg 0 == 0x2C && t.reg 1 == 0x64 && t.pc == 3) = true := by decide
/-- V24. -/
theorem test_step_sub : answers (step (regs [(0, 0x05), (1, 0x0A)] (code 0 [0xA1, 0x00, 0x01]))) (fun t => t.reg 0 == 0xFB && t.reg 1 == 0x0A && t.pc == 3) = true := by decide
/-- V33. -/
theorem test_step_div : answers (step (regs [(0, 0x64), (1, 0x07)] (code 0 [0xA3, 0x00, 0x01]))) (fun t => t.reg 0 == 0x0E && t.reg 1 == 0x07 && t.pc == 3) = true := by decide
/-- V84. -/
theorem test_halt_div_zero_before_advance : halts (regs [(0, 5)] (code 0xFD [0xA3, 0x00, 0x01])) .divisionByZero = true := by decide
/-- V46. -/
theorem test_step_mod : answers (step (regs [(0, 0xFF), (1, 0x10)] (code 0 [0xA4, 0x00, 0x01]))) (fun t => t.reg 0 == 0x0F && t.reg 1 == 0x10 && t.pc == 3) = true := by decide
/-- V47. -/
theorem test_halt_mod_zero : halts (regs [(0, 0x64)] (code 0 [0xA4, 0x00, 0x01])) .divisionByZero = true := by decide
/-- V48. -/
theorem test_step_and : answers (step (regs [(0, 0xCC), (1, 0xAA)] (code 0 [0xA8, 0x00, 0x01]))) (fun t => t.reg 0 == 0x88 && t.reg 1 == 0xAA && t.pc == 3) = true := by decide
/-- V50. -/
theorem test_step_or : answers (step (regs [(0, 0xCC), (1, 0xAA)] (code 0 [0xAA, 0x00, 0x01]))) (fun t => t.reg 0 == 0xEE && t.reg 1 == 0xAA && t.pc == 3) = true := by decide
/-- V52. -/
theorem test_step_xor : answers (step (regs [(0, 0xCC), (1, 0xAA)] (code 0 [0xAB, 0x00, 0x01]))) (fun t => t.reg 0 == 0x66 && t.reg 1 == 0xAA && t.pc == 3) = true := by decide
/-- V81, NOT R7. -/
theorem test_step_not : answers (step (code 0 [0x69, 0x07])) (fun t => t.sp == 0x0B && t.pc == 2) = true := by decide
/-- V54. -/
theorem test_step_shl : answers (step (regs [(0, 0x81), (1, 0x01)] (code 0 [0xAC, 0x00, 0x01]))) (fun t => t.reg 0 == 0x02 && t.reg 1 == 0x01 && t.pc == 3) = true := by decide
/-- V74. -/
theorem test_step_shl_same_register : answers (step (regs [(2, 3)] (code 0 [0xAC, 0x02, 0x02]))) (fun t => t.reg 2 == 0x18) = true := by decide
/-- V61. -/
theorem test_step_shr : answers (step (regs [(0, 0x80), (1, 0x07)] (code 0 [0xAD, 0x00, 0x01]))) (fun t => t.reg 0 == 0x01 && t.reg 1 == 0x07 && t.pc == 3) = true := by decide
/-- V65. -/
theorem test_step_shr_large : answers (step (regs [(0, 0x80), (1, 0xC8)] (code 0 [0xAD, 0x00, 0x01]))) (fun t => t.reg 0 == 0x00 && t.reg 1 == 0xC8 && t.pc == 3) = true := by decide
/-- V138. -/
theorem test_halt_unknown_opcode : halts (code 0xFF [0x02]) .decodeError = true := by decide
/-- V82. -/
theorem test_halt_second_register : halts (regs [(0, 1)] (code 0 [0xA0, 0x00, 0x08])) .invalidRegister = true := by decide
/-- V139. -/
theorem test_step_halted : step (code 0 [0x82, 0x00, 0x08]).stop = .next (code 0 [0x82, 0x00, 0x08]).stop := rfl

/-! ### A witness for the hypotheses of each statement -/

/-- A configuration other than the default: the opcode is the mnemonic's place in the table. -/
def numbered : Config := { opcodeMap := fun m => BitVec.ofNat 8 (Mnemonic.all.idxOf m), aluExt := true }

theorem numbered_valid : numbered.Valid := by
  intro m n _ _ h
  revert h
  cases m <;> cases n <;> decide

theorem witness_ConstructionPlacesTheImage :
    (List.replicate 256 (1 : Byte)).length ≤ 256 ∧ 256 < (List.replicate 257 (1 : Byte)).length := by
  rw [List.length_replicate, List.length_replicate]
  decide
theorem witness_RegisterSetChangesOneRegister :
    (6 : RegIndex) ≠ spReg ∧ (0 : RegIndex) ≠ 6 := by decide
theorem witness_MemReadReturnsTheLatestWrite :
    ((-1 : Int) < 0 ∧ (255 : Int) < 256) ∧ ((0 : Int) ≤ 255 ∧ (255 : Int) ≤ 255) ∧
    construct [1, 2] = .next (placeBytes 0 [1, 2] State.reset) ∧
    Memory.wf State.reset.mem ∧ memWrite 255 7 State.reset = .ok (State.reset.setMem [(255, 7)]) ∧ (254 : Int) ≠ 255 := by
  refine ⟨by decide, by decide, rfl, State.reset_mem_wf, rfl, by decide⟩
theorem witness_MemWriteChangesExactlyOneCell :
    ((-1 : Int) < 0 ∧ (255 : Int) < 256) ∧ (0 : Int) ≤ 0 ∧ (255 : Int) ≤ 255 ∧ Memory.wf [(0, 9), (255, 7)] := by decide
theorem witness_CanonicalMemoriesThatReadAlikeAreEqual :
    Memory.wf (Memory.write [(255, 7)] 0 9) ∧ Memory.wf [(0, 9), (255, 7)] ∧
    ∀ a : Nat, a < 256 → Memory.read (Memory.write [(255, 7)] 0 9) a = Memory.read [(0, 9), (255, 7)] a := ⟨by decide, by decide, fun _ _ => rfl⟩
theorem witness_PushStoresBelowTheStackPointer :
    (regs [(7, 0)] State.reset).sp = 0 ∧ (regs [(7, 1)] State.reset).sp ≠ 0 ∧ Memory.wf (regs [(7, 1)] State.reset).mem := by decide
theorem witness_PopReadsAtTheStackPointer :
    (regs [(7, 255)] State.reset).sp = 255 ∧ (regs [(7, 254)] State.reset).sp ≠ 255 := by decide
theorem witness_StepRunsTheDecodedInstruction :
    (code 253 [0x82, 0x07, 0xFF]).running = true ∧
    decode Config.standard (fetchWindow (code 253 [0x82, 0x07, 0xFF])) = .ok (.ldi 7 255) := by
  have h : fetchWindow (code 253 [0x82, 0x07, 0xFF]) = [0x82, 0x07, 0xFF] := by decide
  exact ⟨rfl, by rw [h]; rfl⟩
theorem witness_CycleRunsTheEncodedBytes :
    numbered.Valid ∧ numbered.inTable (Instr.ldi 7 255).mnemonic = true ∧ (code 253 [1, 7, 255]).running = true ∧
    (code 253 [1, 7, 255]).pc.toNat + (Instr.ldi 7 255).length ≤ 256 ∧
    ∀ (k : Nat) (h : k < (encode numbered (.ldi 7 255)).length),
      (code 253 [1, 7, 255]).mem.read ((code 253 [1, 7, 255]).pc.toNat + k) = (encode numbered (.ldi 7 255))[k] := by
  refine ⟨numbered_valid, rfl, rfl, by decide, fun k h => ?_⟩
  have h3 : k < 3 := h
  rcases k with _ | _ | _ | k
  · rfl
  · rfl
  · rfl
  · omega
theorem witness_UnknownOpcodeIsDecodeError :
    (code 255 [0x02]).running = true ∧ ∀ m : Mnemonic, Config.standard.inTable m = true →
      Config.standard.opcodeMap m ≠ (code 255 [0x02]).mem.read (code 255 [0x02]).pc.toNat := ⟨rfl, fun m _ => by cases m <;> decide⟩
theorem witness_OperandsAreFetchedByArity :
    ((code 254 [0x82]).running = true ∧ (code 254 [0x82]).mem.read 254 = standardOpcode .ldi ∧
      255 < (code 254 [0x82]).pc.toNat + Mnemonic.ldi.arity) ∧
    ((code 255 [0x01]).running = true ∧ (code 255 [0x01]).mem.read 255 = standardOpcode .hlt ∧
      (code 255 [0x01]).pc.toNat + Mnemonic.hlt.arity ≤ 255) := by decide
theorem witness_HaltedIsTerminal :
    State.reset.stop.running = false := by decide
theorem witness_FirstRegisterOperandIsChecked :
    8 ≤ (8 : RegOperand).toNat ∧ 8 ≤ (255 : RegOperand).toNat := by decide
theorem witness_SecondRegisterOperandIsChecked :
    8 ≤ (8 : RegOperand).toNat ∧ (0 : RegOperand).toNat < 8 := by decide
/-- The one hypothesis of LdiLoadsItsImmediate, AddSubMulAreModulo256, AndOrXorAreBitwise, ShiftsUseTheWholeCount and
CmpSetsTheFlag, at its bound. -/
theorem witness_ThreeByteInstructionsFit :
    (code 252 []).pc.toNat ≤ 252 := by decide
/-- The one hypothesis of PrnEmitsTheRegister, NotInvertsEveryBit and JeqAndJneAreComplements, at its bound. -/
theorem witness_TwoByteInstructionsFit :
    (code 253 []).pc.toNat ≤ 253 := by decide
theorem witness_DivModAreQuotientAndRemainder :
    (code 252 []).pc.toNat ≤ 252 ∧ (code 252 []).reg 7 ≠ 0 := by decide
theorem witness_DivModByZeroHaltUnchanged :
    (code 255 []).reg 1 = 0 := by decide
theorem witness_ShiftsByEightOrMore :
    (code 252 []).pc.toNat ≤ 252 ∧ 8 ≤ ((regs [(1, 8)] (code 252 [])).reg 1).toNat := by decide
theorem witness_PushStoresTheRegister :
    (regs [(7, 1)] (code 253 [])).pc.toNat ≤ 253 ∧ (regs [(7, 1)] (code 253 [])).sp ≠ 0 := by decide
theorem witness_PopLoadsTheRegister :
    (regs [(7, 254)] (code 253 [])).pc.toNat ≤ 253 ∧ (regs [(7, 254)] (code 253 [])).sp ≠ 255 := by decide
theorem witness_StackLeavingMemoryIsOutOfBounds :
    (regs [(7, 0)] State.reset).sp = 0 ∧ (regs [(7, 255)] State.reset).sp = 255 ∧ 253 < (code 254 []).pc.toNat := by decide
theorem witness_PushThenPopRestores :
    (6 : RegIndex) ≠ spReg ∧ (regs [(7, 1)] (code 251 [])).pc.toNat ≤ 251 ∧ (regs [(7, 1)] (code 251 [])).sp ≠ 0 ∧
    Memory.wf (regs [(7, 1)] (code 251 [])).mem := by decide
theorem witness_CallPushesTheReturnAddress :
    (regs [(7, 1)] (code 253 [])).pc.toNat ≤ 253 ∧ (regs [(7, 1)] (code 253 [])).sp ≠ 0 := by decide
theorem witness_CallThenRetReturns :
    (code 253 []).pc.toNat ≤ 253 ∧ (code 253 []).sp ≠ 0 ∧ Memory.wf (code 253 []).mem := by decide
theorem witness_RetPopsIntoPc :
    (regs [(7, 254)] (code 255 [])).sp ≠ 255 := by decide
theorem witness_TransfersAssignPcUnchecked :
    ((code 254 []).setFl .equal).fl = .equal ∧ (code 254 []).fl ≠ .equal ∧
    ((code 253 []).pc.toNat ≤ 253 ∧ (code 253 []).sp ≠ 0) ∧ (code 255 []).sp ≠ 255 := by decide
theorem witness_CompareThenJump :
    (code 250 []).pc.toNat ≤ 250 := by decide
theorem witness_AdvancePastTheEndIsOutOfBounds :
    252 < (code 253 []).pc.toNat ∧ (252 < (code 253 []).pc.toNat ∧ (code 253 []).reg 7 ≠ 0) ∧
    253 < (code 254 []).pc.toNat ∧ (253 < (code 254 []).pc.toNat ∧ (code 254 []).fl ≠ .equal) ∧
    (253 < (code 254 []).pc.toNat ∧ ((code 254 []).setFl .equal).fl = .equal) := by decide
theorem witness_ResultInstructionsFrame :
    resultOperand (.div 0 7) = some 0 ∧ ∃ t, exec (.div 0 7) State.reset = .next t ∧ t.running = true ∧ t.pc = 3 := ⟨rfl, reaches _ _ (by decide)⟩
theorem witness_RegisterPreservingInstructionsFrame :
    (∃ t, exec (.prn 7) State.reset = .next t ∧ t.out = [0xF4]) ∧
    (∃ t, exec (.cmp 7 0) State.reset = .next t ∧ t.fl = .greater) ∧ (∃ t, exec (.jmp 7) State.reset = .next t ∧ t.pc = 0xF4) ∧
    (∃ t, exec (.jeq 7) State.reset = .next t ∧ t.pc = 2) ∧ (∃ t, exec (.jne 7) State.reset = .next t ∧ t.pc = 0xF4) ∧
    (∃ t, exec .hlt State.reset = .next t ∧ t.running = false) := ⟨reaches _ _ (by decide), reaches _ _ (by decide), reaches _ _ (by decide), reaches _ _ (by decide), reaches _ _ (by decide), reaches _ _ (by decide)⟩
theorem witness_StackWritersFrame :
    Memory.wf State.reset.mem ∧ (∃ t, exec (.push 7) State.reset = .next t ∧ t.mem = [(0xF3, 0xF4)]) ∧
    (∃ t, exec (.call 7) State.reset = .next t ∧ t.mem = [(0xF3, 2)]) ∧ ((0xF4 : Nat) : Int) ≠ pushAddr State.reset := ⟨State.reset_mem_wf, reaches _ _ (by decide), reaches _ _ (by decide), by decide⟩
theorem witness_StackReadersFrame :
    (∃ t, exec (.pop 1) State.reset = .next t ∧ t.sp = 0xF5) ∧ (∃ t, exec .ret State.reset = .next t ∧ t.sp = 0xF5) ∧
    (6 : RegIndex) ≠ spReg ∧ RegIndex.operand 6 ≠ (1 : RegOperand) := ⟨reaches _ _ (by decide), reaches _ _ (by decide), by decide, by decide⟩
theorem witness_EveryCycleKeepsTheInvariant :
    State.Inv (code 0 [0x45, 0x07]) ∧ ∃ t, cycle Config.standard (code 0 [0x45, 0x07]) = .next t ∧ t.sp = 0xF3 := ⟨⟨by decide, fun _ => rfl, fun h => absurd rfl h, fun h => absurd rfl h, by decide⟩, reaches _ _ (by decide)⟩
theorem witness_FatalErrorsArePrecise :
    ∃ t, step (code 5 [0x00]) = .next t ∧ (t.err ≠ (code 5 [0x00]).err ∨ t.errpc ≠ (code 5 [0x00]).errpc) := reaches _ _ (by decide)
theorem witness_CleanStopIsHlt :
    ∃ t, step (code 255 [0x01]) = .next t ∧ (code 255 [0x01]).running = true ∧ t.running = false ∧ t.err = .none := reaches _ _ (by decide)
theorem witness_FlagPersistsUntilTheNextCompare :
    (code 252 []).pc.toNat ≤ 252 ∧ ((Instr.sub 0 7).mnemonic ≠ .cmp ∧ ∃ t, exec (.sub 0 7) State.reset = .next t) ∧
    ((Instr.sub 0 7).mnemonic ≠ .jeq ∧ (Instr.sub 0 7).mnemonic ≠ .jne) ∧
    (∃ t, cycle Config.standard (code 0 [0x55, 0x07]) = .next t ∧
      lookup Config.standard ((code 0 [0x55, 0x07]).mem.read 0) ≠ some .cmp) ∧
    (∃ t, cycle Config.standard ((code 0 [0x55, 0x07]).setFl .less) = .next t ∧ ((code 0 [0x55, 0x07]).setFl .less).fl ≠ .unset) := ⟨by decide, ⟨by decide, _, rfl⟩, by decide, reaches _ _ (by decide), reaches _ _ (by decide)⟩
theorem witness_FlagIsWrittenByCmpAndReadByJumps :
    (∃ t, exec (.cmp 0 7) State.reset = .next t ∧ t.fl ≠ State.reset.fl) ∧
    ((Instr.cmp 0 7).mnemonic ≠ .jeq ∧ (Instr.cmp 0 7).mnemonic ≠ .jne ∧ ∃ t, exec (.cmp 0 7) State.reset = .next t) ∧
    ((Flag.greater = .equal ↔ (State.reset.setFl .less).fl = .equal) ∧ ∃ t, exec (.jeq 7) (State.reset.setFl .less) = .next t) := ⟨⟨_, rfl, by decide⟩, ⟨by decide, by decide, _, rfl⟩, by decide, _, rfl⟩
theorem witness_OnlyPushAndCallWriteMemory :
    Memory.wf (code 0 [0x45, 0x07]).mem ∧ ∃ t, step (code 0 [0x45, 0x07]) = .next t ∧
      t.mem.read 0xF3 ≠ (code 0 [0x45, 0x07]).mem.read 0xF3 := ⟨by decide, reaches _ _ (by decide)⟩
/-- The hypotheses of OutputGrowsByPrnOnly and OutputIsNeverRead. -/
theorem witness_OutputStatements :
    ∃ t, step (code 253 [0x47, 0x07]) = .next t ∧ t.out = [0xF4] := reaches _ _ (by decide)
theorem witness_PcAdvancesOrIsAssigned :
    ∃ t, step (code 252 [0x82, 0x00, 0x08]) = .next t ∧ t.running = true ∧ t.pc = 255 := reaches _ _ (by decide)
theorem witness_PushedHltStopsTheMachine :
    let s := regs [(0, 0x01), (7, 255)] (code 252 [0x45, 0x00])
    Memory.wf s.mem ∧ s.running = true ∧ s.err = .none ∧ s.pc.toNat ≤ 252 ∧ s.mem.read s.pc.toNat = 0x45 ∧
      s.mem.read (s.pc.toNat + 1) = RegIndex.operand 0 ∧ s.reg 0 = 0x01 ∧ s.sp.toNat = s.pc.toNat + 3 := by decide
/-- The PUSH clause, storing at the address `pc` comes to. -/
theorem witness_PushedByteIsFetchedNext_push :
    let s := regs [(0, 0x01), (7, 4)] (code 1 [0x45, 0x00])
    Memory.wf s.mem ∧ s.running = true ∧ s.pc.toNat ≤ 253 ∧ s.sp ≠ 0 ∧
      decode Config.standard (fetchWindow s) = .ok (.push (RegIndex.operand 0)) ∧
      ∃ t, exec (.push (RegIndex.operand 0)) s = .next t ∧ (t.pc.toNat : Int) = pushAddr s := by
  have h : fetchWindow (regs [(0, 0x01), (7, 4)] (code 1 [0x45, 0x00])) = [0x45, 0x00, 0x00] := by decide
  exact ⟨by decide, rfl, by decide, by decide, by rw [h]; rfl, reaches _ _ (by decide)⟩
/-- The CALL clause at the bound of `pc`, storing over its own operand byte. -/
theorem witness_PushedByteIsFetchedNext_call :
    let s := regs [(0, 253), (7, 255)] (code 253 [0x50, 0x00])
    Memory.wf s.mem ∧ s.running = true ∧ s.pc.toNat ≤ 253 ∧ s.sp ≠ 0 ∧
      decode Config.standard (fetchWindow s) = .ok (.call (RegIndex.operand 0)) ∧
      ∃ t, exec (.call (RegIndex.operand 0)) s = .next t ∧ ((t.pc.toNat + 1 : Nat) : Int) = pushAddr s := by
  have h : fetchWindow (regs [(0, 253), (7, 255)] (code 253 [0x50, 0x00])) = [0x50, 0x00, 0x00] := by decide
  exact ⟨by decide, rfl, by decide, by decide, by rw [h]; rfl, reaches _ _ (by decide)⟩
theorem witness_DecodeInvertsEncode :
    numbered.Valid ∧ numbered.inTable (Instr.shr 255 8).mnemonic = true := ⟨numbered_valid, rfl⟩
theorem witness_DecodedBytesAreItsEncoding :
    decode numbered [21, 7, 0, 99] = .ok (.shr 7 0) := rfl
theorem witness_WithoutAluExtOnlyTenOpcodesChange :
    ((code 0 [0x69, 0x00]).running = true ∧ ∃ m : Mnemonic, m.isExt = true ∧ (code 0 [0x69, 0x00]).mem.read 0 = standardOpcode m) ∧
    (∀ m : Mnemonic, m.isExt = true → (code 0 [0xA2, 0x00, 0x00]).mem.read 0 ≠ standardOpcode m) := ⟨⟨rfl, .not, by decide⟩, fun m => by cases m <;> decide⟩

end Sys2Proof.Tests
end

namespace Sys2Proof.Machine

/-! ### Every cycle keeps the invariant -/

/-- A fatal error from a state that meets the invariant leaves one that meets it (R152). -/
theorem enterFatal_inv {e : Raise} {s : State} (hs : s.Inv) (he : e ≠ .unsupportedOperation) : (enterFatal e s).Inv where
  mem_wf := hs.mem_wf
  errpc_zero h := absurd h e.kind_ne_none
  fatal_halted _ := rfl
  fatal_errpc _ := rfl
  supported := Raise.kind_supported he

/-- A completed instruction keeps memory canonical: it leaves it, or pushes one byte (R43). -/
theorem Done.mem_wf {i : Instr} {s t : State} (h : Done i s t) (hs : Memory.wf s.mem) : Memory.wf t.mem := by
  rcases h.mem with hm | ⟨-, -, v, hm⟩ <;> rw [hm]
  · exact hs
  · exact pushed_wf hs

/-- While no fatal error has occurred, a completed instruction keeps the invariant: it leaves the latch (R21). -/
theorem Done.inv {i : Instr} {s t : State} (h : Done i s t) (hs : s.Inv) (hnone : s.err = .none) : t.Inv := by
  obtain ⟨herr, herrpc, -⟩ := h.status
  have ht : t.err = .none := herr.trans hnone
  exact {
    mem_wf := h.mem_wf hs.mem_wf
    errpc_zero := fun _ => herrpc.trans (hs.errpc_zero hnone)
    fatal_halted := fun hne => absurd ht hne
    fatal_errpc := fun hne => absurd ht hne
    supported := by rw [ht]; nofun }

/-- A running machine that meets the invariant has met no fatal error (R20, R21). -/
theorem State.Inv.err_none {s : State} (hs : s.Inv) (hr : s.running = true) : s.err = .none :=
  Classical.byContradiction fun hne => by simp [hs.fatal_halted hne] at hr

/-- Settles O43: a cycle leaves the state, enters Halted, or completes an instruction, and each keeps the invariant. -/
theorem everyCycleKeepsTheInvariant : Obligations.EveryCycleKeepsTheInvariant := by
  intro c s t hs h
  rcases cycle_inv h with ⟨-, rfl⟩ | ⟨hr, ⟨e, he, rfl⟩ | ⟨i, -, -, -, hd⟩⟩
  · exact hs
  · exact enterFatal_inv hs he
  · exact hd.inv hs (hs.err_none hr)

/-- Settles O44: memory is empty and the latch clear. -/
theorem resetMeetsTheInvariant : Obligations.ResetMeetsTheInvariant where
  mem_wf := State.reset_mem_wf
  errpc_zero _ := rfl
  fatal_halted h := absurd rfl h
  fatal_errpc h := absurd rfl h
  supported := nofun

end Sys2Proof.Machine

namespace Sys2Proof.Machine

/-! ### Reset, registers, halting -/

/-- Settles O1: the reset state's fields as they are written; the registers one by one. -/
theorem resetHoldsTheInitialValues : Obligations.ResetHoldsTheInitialValues :=
  ⟨Memory.read_nil, by decide, rfl, rfl, rfl, rfl, rfl, rfl, rfl⟩

/-- Settles O3: the register file's get after set, and a set writes the field `x` alone. -/
theorem registerSetChangesOneRegister : Obligations.RegisterSetChangesOneRegister :=
  fun r v s => ⟨State.reg_setReg_same s r v, fun q h => State.reg_setReg_other s r q v h, rfl⟩

/-- A run goes on from the state its first step answers (R29). -/
theorem run_succ_of_step {M : Host.Core} {s t : M.State} (h : M.step s = .next t) (k : Nat) :
    M.run (k + 1) s = M.run k t := by
  rw [Host.Core.run, h]

/-- Settles O14: one step by the cycle's test of RUNNING, any number of steps by induction on them. -/
theorem haltedIsTerminal : Obligations.HaltedIsTerminal := by
  intro s hs
  have hstep : core.step s = .next s := cycle_halted Config.standard hs
  refine ⟨hstep, fun k => ?_⟩
  induction k with
  | zero => rfl
  | succ k ih => exact (run_succ_of_step hstep k).trans ih

/-! ### Memories in canonical form -/

/-- Below its first listed address a canonical memory reads 0. -/
theorem Memory.read_below_head {c : Host.Cell} {m : Memory} {a : Nat} (h : Memory.wf (c :: m)) (ha : a < c.1) :
    Memory.read (c :: m) a = 0 := by
  rw [Memory.read_cons, if_neg (by omega)]
  exact Memory.read_of_lt_head h (Nat.le_of_lt ha)

/-- A canonical memory that reads as another does has no cell below the other's first. -/
theorem Memory.head_le_of_read_eq {c d : Host.Cell} {m n : Memory} (hm : Memory.wf (c :: m)) (hn : Memory.wf (d :: n))
    (h : ∀ a < 256, Memory.read (c :: m) a = Memory.read (d :: n) a) : d.1 ≤ c.1 := by
  obtain ⟨-, hc, hv, -⟩ := Memory.wf_cons.mp hm
  refine Nat.le_of_not_lt fun hlt => hv ?_
  rw [← Memory.read_head (c := c) (m := m), h c.1 hc, Memory.read_below_head hn hlt]

/-- The tails of canonical memories that have one head and read alike read alike. -/
theorem Memory.tail_read_eq {c : Host.Cell} {m n : Memory} (hm : Memory.wf (c :: m)) (hn : Memory.wf (c :: n)) {a : Nat}
    (h : Memory.read (c :: m) a = Memory.read (c :: n) a) : m.read a = n.read a := by
  by_cases ha : c.1 = a
  · rw [Memory.read_of_lt_head hm (by omega), Memory.read_of_lt_head hn (by omega)]
  · simpa only [Memory.read_cons, if_neg ha] using h

/-- Only the empty canonical memory reads 0 everywhere. -/
theorem Memory.cons_reads_nonzero {c : Host.Cell} {m : Memory} (hm : Memory.wf (c :: m)) :
    ∃ a < 256, Memory.read (c :: m) a ≠ 0 := by
  obtain ⟨-, hc, hv, -⟩ := Memory.wf_cons.mp hm
  exact ⟨c.1, hc, by rwa [Memory.read_head]⟩

/-- Settles O6, by induction on both lists: the first cells agree on their address, hence on their byte, and the tails
read alike. -/
theorem canonicalMemoriesThatReadAlikeAreEqual : Obligations.CanonicalMemoriesThatReadAlikeAreEqual := by
  intro m
  induction m with
  | nil =>
    rintro (_ | ⟨d, n⟩) - hn h
    · rfl
    · obtain ⟨a, ha, hne⟩ := Memory.cons_reads_nonzero hn
      exact absurd (h a ha).symm hne
  | cons c m ih =>
    rintro (_ | ⟨d, n⟩) hm hn h
    · obtain ⟨a, ha, hne⟩ := Memory.cons_reads_nonzero hm
      exact absurd (h a ha) hne
    · obtain ⟨-, hc, -, hm'⟩ := Memory.wf_cons.mp hm
      have haddr : c.1 = d.1 := Nat.le_antisymm (Memory.head_le_of_read_eq hn hm fun a ha => (h a ha).symm)
        (Memory.head_le_of_read_eq hm hn h)
      have hbyte : c.2 = d.2 := by
        rw [← Memory.read_head (c := c) (m := m), h c.1 hc, haddr, Memory.read_head]
      obtain rfl : c = d := Prod.ext haddr hbyte
      rw [ih n hm' (Memory.wf_cons.mp hn).2.2.2 fun a ha => Memory.tail_read_eq hm hn (h a ha)]

/-! ### Construction from an image -/

/-- Storing bytes writes memory and no other field. -/
theorem placeBytes_eq (vs : List Byte) (addr : Nat) (s : State) :
    placeBytes addr vs s = { s with mem := (placeBytes addr vs s).mem } := by
  induction vs generalizing addr s with
  | nil => rfl
  | cons v vs ih =>
    have hv : placeByte addr v s = { s with mem := (placeByte addr v s).mem } := by
      by_cases h : inRange (addr : Int)
      · simp only [placeByte, memWrite_inside s v h, State.setMem]
      · simp only [placeByte, memWrite_outside s v h]
    rw [placeBytes, ih, hv]

/-- Bytes stored at ascending addresses below 256 are read back there, and every other address reads as before. -/
theorem read_placeBytes (vs : List Byte) {addr : Nat} {s : State} (hs : Memory.wf s.mem) (h : addr + vs.length ≤ 256)
    (a : Nat) : (placeBytes addr vs s).mem.read a =
      if addr ≤ a ∧ a < addr + vs.length then vs.getD (a - addr) 0 else s.mem.read a := by
  induction vs generalizing addr s with
  | nil => rw [if_neg (by simp)]; rfl
  | cons v vs ih =>
    rw [List.length_cons] at h ⊢
    rw [placeBytes, ih (placeByte_wf hs) (by omega), placeByte_inside (by omega), State.setMem_mem,
      Memory.read_write hs]
    rcases Nat.lt_trichotomy a addr with hlt | rfl | hgt
    · rw [if_neg (by omega), if_neg (by omega), if_neg (by omega)]
    · rw [if_neg (by omega), if_pos rfl, if_pos (by omega), Nat.sub_self, List.getD_cons_zero]
    · rw [if_neg (show ¬ addr = a by omega), show a - addr = (a - (addr + 1)) + 1 by omega, List.getD_cons_succ]
      have hiff : (addr + 1 ≤ a ∧ a < addr + 1 + vs.length) ↔ (addr ≤ a ∧ a < addr + (vs.length + 1)) := by omega
      simp only [hiff]

/-- Settles O2: construction stores the image into the reset state, whose memory reads 0. -/
theorem constructionPlacesTheImage : Obligations.ConstructionPlacesTheImage := by
  refine fun img => ⟨fun h => ?_, fun h => if_neg (Nat.not_le_of_lt h)⟩
  have hread := read_placeBytes img (addr := 0) State.reset_mem_wf (by omega)
  have hfields := placeBytes_eq img 0 State.reset
  refine ⟨_, if_pos h, fun a ha => ?_, fun a ha => ?_, hfields, ?_⟩
  · rw [hread, if_pos (by omega), Nat.sub_zero, List.getD_eq_getElem?_getD, List.getElem?_eq_getElem ha, Option.getD_some]
  · rw [hread, if_neg (by omega)]; rfl
  · rw [hfields]
    exact { resetMeetsTheInvariant with mem_wf := placeBytes_wf img State.reset_mem_wf }

end Sys2Proof.Machine

namespace Sys2Proof.Machine

/-! ### Operand checks and advances that fail -/

/-- Whatever a handler goes on with, its check of an illegal register ends the cycle (R73). -/
theorem complete_checkReg_illegal {a : RegOperand} (h : 8 ≤ a.toNat) (s : State) (k : RegIndex → Except Raise State) :
    complete s (checkReg a >>= k) = .next (s.fatal .invalidRegister) := by
  rw [checkReg_illegal h]; rfl

/-- The common handler checks its first operand before anything else (R64, R114). -/
theorem aluTwoReg_illegal_first (op : AluOp) {a : RegOperand} (h : 8 ≤ a.toNat) (b : RegOperand) (s : State) :
    complete s (aluTwoReg op a b s) = .next (s.fatal .invalidRegister) := by
  unfold aluTwoReg
  rw [checkRegs_bind]
  exact complete_checkReg_illegal h s _

/-- Settles O15: every handler begins with the check of its first operand. -/
theorem firstRegisterOperandIsChecked : Obligations.FirstRegisterOperandIsChecked := by
  intro a b s h
  have one (k : RegIndex → Except Raise State) : complete s (checkReg a >>= k) = .next (s.fatal .invalidRegister) :=
    complete_checkReg_illegal h s k
  have two (op : AluOp) : complete s (aluTwoReg op a b s) = .next (s.fatal .invalidRegister) :=
    aluTwoReg_illegal_first op h b s
  simp only [List.forall_mem_cons]
  exact ⟨one _, one _, one _, one _, one _, one _, one _, one _, one _,
    two .mul, two .cmp, two .add, two .sub, two .div, two .mod, two .and, two .or, two .xor, two .shl, two .shr, nofun⟩

/-- An instruction of one legal register whose last act is an advance past 255 halts with OutOfBounds (R16). -/
theorem complete_checked_advance_error (r : RegIndex) (n : Nat) {s : State} {f : RegIndex → State}
    (hpc : (f r).pc = s.pc) (h : 255 < s.pc.toNat + n) :
    complete s (checkReg r.operand >>= fun q => advance n (f q)) = .next (s.fatal .outOfBounds) := by
  rw [checkReg_operand, except_bind_ok]
  exact complete_advance_error n hpc h

/-- The ALU raises no error where its second input is not 0 (R113). -/
theorem aluApply_ok_of_nonzero (op : AluOp) (x : Byte) {y : Byte} (h : y ≠ 0) : ∃ o, aluApply op x y = .ok o := by
  rcases aluApply_cases op x y with ⟨-, v, hv⟩ | ⟨-, hf⟩ | ⟨-, h0, -⟩
  · exact ⟨_, hv⟩
  · exact ⟨_, hf⟩
  · exact absurd h0 h

/-- PUSH past the end halts with OutOfBounds, whether the push or the advance raises it (R16, R44). -/
theorem exec_push_advance_error (r : RegIndex) {s : State} (h : 253 < s.pc.toNat) :
    exec (.push r.operand) s = .next (s.fatal .outOfBounds) := by
  show complete s (checkReg r.operand >>= fun q => push (s.reg q) s >>= advance 2) = _
  rw [checkReg_operand, except_bind_ok]
  rcases push_cases s (s.reg r) with ⟨-, he⟩ | ⟨-, he⟩ <;> rw [he]
  · exact complete_advance_error 2 rfl (by omega)
  · rfl

/-- POP past the end halts with OutOfBounds, whether the pop or the advance raises it (R16, R45). -/
theorem exec_pop_advance_error (r : RegIndex) {s : State} (h : 253 < s.pc.toNat) :
    exec (.pop r.operand) s = .next (s.fatal .outOfBounds) := by
  show complete s (checkReg r.operand >>= fun q => pop s >>= fun p => advance 2 (p.2.setReg q p.1)) = _
  rw [checkReg_operand, except_bind_ok]
  rcases pop_cases s with ⟨-, he⟩ | ⟨-, he⟩ <;> rw [he]
  · exact complete_advance_error 2 rfl (by omega)
  · rfl

theorem Flag.isEqual_iff (f : Flag) : f.isEqual = true ↔ f = .equal := decide_eq_true_iff

theorem Flag.isEqual_false {f : Flag} (h : f ≠ .equal) : f.isEqual = false := decide_eq_false h

/-- Settles O37: every check before the advance succeeds, or raises OutOfBounds itself. -/
theorem advancePastTheEndIsOutOfBounds : Obligations.AdvancePastTheEndIsOutOfBounds := by
  intro r q b s
  refine ⟨fun h => ?_, fun h hq => ?_, fun h => ?_, fun h hf => ?_, fun h hf => ?_⟩
  · have alu (op : AluOp) {o : AluOutput} (ho : aluApply op (s.reg r) (s.reg q) = .ok o) :
        complete s (aluTwoReg op r.operand q.operand s) = .next (s.fatal .outOfBounds) :=
      aluTwoReg_advance_error op r q h ho
    simp only [List.forall_mem_cons]
    exact ⟨complete_checked_advance_error r 3 (f := fun r => s.setReg r b) rfl (by omega), alu .mul rfl, alu .cmp rfl,
      alu .add rfl, alu .sub rfl, alu .and rfl, alu .or rfl, alu .xor rfl, alu .shl rfl, alu .shr rfl, nofun⟩
  · have alu (op : AluOp) : complete s (aluTwoReg op r.operand q.operand s) = .next (s.fatal .outOfBounds) := by
      obtain ⟨o, ho⟩ := aluApply_ok_of_nonzero op (s.reg r) hq
      exact aluTwoReg_advance_error op r q h ho
    simp only [List.forall_mem_cons]
    exact ⟨alu .div, alu .mod, nofun⟩
  · simp only [List.forall_mem_cons]
    exact ⟨complete_checked_advance_error r 2 (f := fun r => s.emit (s.reg r)) rfl (by omega),
      complete_checked_advance_error r 2 (f := fun r => s.setReg r (aluNot (s.reg r))) rfl (by omega),
      exec_push_advance_error r h, exec_pop_advance_error r h, nofun⟩
  · show complete s (jumpIf s.fl.isEqual r.operand s) = _
    rw [Flag.isEqual_false hf]
    exact complete_checked_advance_error r 2 (f := fun _ => s) rfl (by omega)
  · show complete s (jumpIf (!s.fl.isEqual) r.operand s) = _
    rw [s.fl.isEqual_iff.mpr hf]
    exact complete_checked_advance_error r 2 (f := fun _ => s) rfl (by omega)

/-! ### An instruction's effect is what it answers -/

/-- A two-register ALU instruction with the effect `AluDone` completes (R114). -/
theorem complete_of_aluDone {op : AluOp} {a b : RegOperand} {s t : State} (h : AluDone op a b s t) :
    complete s (aluTwoReg op a b s) = .next t := by
  obtain ⟨r, q, v, rfl, rfl, hv, hpc, rfl⟩ := h
  rw [aluTwoReg_ok op r q hpc hv]; rfl

/-- A handler that checks a legal register and goes on to answer a state completes with it. -/
theorem complete_checked (r : RegIndex) {s t : State} {k : RegIndex → Except Raise State} (h : k r = .ok t) :
    complete s (checkReg r.operand >>= k) = .next t := by
  rw [checkReg_operand, except_bind_ok, h]; rfl

/-- A conditional jump with the effect `JumpDone` completes (R133, R134). -/
theorem complete_of_jumpDone {taken : Bool} {a : RegOperand} {s t : State} (h : JumpDone taken a s t) :
    complete s (jumpIf taken a s) = .next t := by
  obtain ⟨r, rfl, ⟨rfl, rfl⟩ | ⟨rfl, hpc, rfl⟩⟩ := h
  · exact complete_checked r rfl
  · exact complete_checked r (advance_ok s (by omega))

/-- The converse of `exec_inv` for an instruction that completes: an instruction whose effect `Done` gives answers it. -/
theorem exec_of_done {i : Instr} {s t : State} (h : Done i s t) : exec i s = .next t := by
  cases i
  case hlt => obtain rfl := h; rfl
  case ldi a b => obtain ⟨r, rfl, hpc, rfl⟩ := h; exact complete_checked r (advance_ok (s.setReg r b) (by simp; omega))
  case prn a =>
    obtain ⟨r, rfl, hpc, rfl⟩ := h
    exact complete_checked r (advance_ok (s.emit (s.reg r)) (by simp; omega))
  case not a =>
    obtain ⟨r, rfl, hpc, rfl⟩ := h
    exact complete_checked r (advance_ok (s.setReg r (aluNot (s.reg r))) (by simp; omega))
  case push a =>
    obtain ⟨r, rfl, hpc, hsp, rfl⟩ := h
    refine complete_checked r ?_
    rw [push_ok s _ hsp]
    exact advance_ok (pushed (s.reg r) s) (by simp [pushed]; omega)
  case pop a =>
    obtain ⟨r, rfl, hpc, hsp, rfl⟩ := h
    refine complete_checked r ?_
    rw [pop_ok s hsp]
    exact advance_ok ((s.setReg spReg (s.sp + 1)).setReg r (s.mem.read s.sp.toNat)) (by simp; omega)
  case call a =>
    obtain ⟨r, rfl, hpc, hsp, rfl⟩ := h
    refine complete_checked r ?_
    rcases returnAddress_cases s with ⟨-, he⟩ | ⟨hgt, -⟩
    · rw [he, except_bind_ok, push_ok s _ hsp]; rfl
    · omega
  case ret =>
    obtain ⟨hsp, rfl⟩ := h
    show complete s (pop s >>= _) = _
    rw [pop_ok s hsp]; rfl
  case cmp a b =>
    obtain ⟨r, q, rfl, rfl, hpc, rfl⟩ := h
    show complete s (aluTwoReg .cmp r.operand q.operand s) = _
    unfold aluTwoReg
    rw [checkRegs_bind]
    refine complete_checked r ?_
    rw [checkReg_operand, except_bind_ok]
    exact advance_ok (s.setFl (compareFlag (s.reg r) (s.reg q))) (by simp; omega)
  case jmp a => obtain ⟨r, rfl, rfl⟩ := h; exact complete_checked r rfl
  case jeq | jne => exact complete_of_jumpDone h
  all_goals exact complete_of_aluDone h

/-- Settles O32: the effect of each transfer, by `exec_of_done`. -/
theorem transfersAssignPcUnchecked : Obligations.TransfersAssignPcUnchecked := by
  intro r s
  refine ⟨?_, fun hf => ?_, fun hf => ?_, fun hpc hsp => ?_, fun hsp => ?_⟩
  · exact exec_of_done (i := .jmp r.operand) ⟨r, rfl, rfl⟩
  · exact exec_of_done (i := .jeq r.operand) ⟨r, rfl, .inl ⟨s.fl.isEqual_iff.mpr hf, rfl⟩⟩
  · exact exec_of_done (i := .jne r.operand) ⟨r, rfl, .inl ⟨by rw [Flag.isEqual_false hf]; rfl, rfl⟩⟩
  · exact ⟨_, exec_of_done (i := .call r.operand) ⟨r, rfl, hpc, hsp, rfl⟩, rfl, rfl⟩
  · exact ⟨_, exec_of_done (i := .ret) ⟨hsp, rfl⟩, rfl, rfl⟩

end Sys2Proof.Machine

namespace Sys2Proof.Machine

/-! ### What an execution leaves unchanged -/

/-- The rows that move the stack pointer (R44, R45). -/
def stackRows : List Mnemonic := [.push, .pop, .call, .ret]

theorem reg_setReg_cases (s : State) (r : RegIndex) (v : Byte) (q : RegIndex) :
    q = r ∨ (s.setReg r v).reg q = s.reg q :=
  (Classical.em (q = r)).imp_right (State.reg_setReg_other s r q v)

/-- A completed instruction changes the register its result operand names, POP the one its operand names, and the stack
rows R7 (R13). -/
theorem Done.reg {i : Instr} {s t : State} (h : Done i s t) (q : RegIndex) :
    t.reg q = s.reg q ∨ resultOperand i = some q.operand ∨ i = .pop q.operand ∨
      (q = spReg ∧ i.mnemonic ∈ stackRows) := by
  cases i <;> simp only [Done, AluDone, JumpDone] at h
  case hlt => subst h; exact .inl rfl
  case prn => obtain ⟨r, rfl, -, rfl⟩ := h; exact .inl rfl
  case cmp => obtain ⟨r, p, rfl, rfl, -, rfl⟩ := h; exact .inl rfl
  case jmp => obtain ⟨r, rfl, rfl⟩ := h; exact .inl rfl
  case jeq | jne => obtain ⟨r, rfl, ⟨-, rfl⟩ | ⟨-, -, rfl⟩⟩ := h <;> exact .inl rfl
  case push | call =>
    obtain ⟨r, rfl, -, -, rfl⟩ := h
    rcases Classical.em (q = spReg) with hq | hq
    · exact .inr (.inr (.inr ⟨hq, by simp [Instr.mnemonic, stackRows]⟩))
    · exact .inl (reg_pushed_other s _ hq)
  case ret =>
    obtain ⟨-, rfl⟩ := h
    rcases reg_setReg_cases s spReg (s.sp + 1) q with hq | hq
    · exact .inr (.inr (.inr ⟨hq, by simp [Instr.mnemonic, stackRows]⟩))
    · exact .inl hq
  case pop =>
    obtain ⟨r, rfl, -, -, rfl⟩ := h
    rcases reg_setReg_cases (s.setReg spReg (s.sp + 1)) r (s.mem.read s.sp.toNat) q with rfl | hr
    · exact .inr (.inr (.inl rfl))
    · rcases reg_setReg_cases s spReg (s.sp + 1) q with hq | hq
      · exact .inr (.inr (.inr ⟨hq, by simp [Instr.mnemonic, stackRows]⟩))
      · exact .inl (hr.trans hq)
  case ldi | not =>
    obtain ⟨r, rfl, -, rfl⟩ := h
    rcases reg_setReg_cases s r _ q with rfl | hq
    · exact .inr (.inl rfl)
    · exact .inl hq
  all_goals
    obtain ⟨r, p, v, rfl, rfl, -, -, rfl⟩ := h
    rcases reg_setReg_cases s r v q with rfl | hq
    · exact .inr (.inl rfl)
    · exact .inl hq

section
variable {i : Instr} {s t : State} (h : exec i s = .next t)
include h

/-- An execution changes no register but those of `Done.reg`; a fatal error changes none (R13, R153). -/
theorem exec_reg (q : RegIndex) :
    t.reg q = s.reg q ∨ resultOperand i = some q.operand ∨ i = .pop q.operand ∨
      (q = spReg ∧ i.mnemonic ∈ stackRows) := by
  rcases exec_inv h with ⟨e, -, rfl⟩ | hd
  · exact .inl rfl
  · exact hd.reg q

/-- An execution of anything but PUSH and CALL keeps memory (R43). -/
theorem exec_keeps_mem (hpush : i.mnemonic ≠ .push) (hcall : i.mnemonic ≠ .call) : SameMemory s t := by
  rcases exec_inv h with ⟨e, -, rfl⟩ | hd
  · exact fun _ => rfl
  · rcases hd.mem with hm | ⟨hi | hi, -⟩
    · exact fun a => by rw [hm]
    · exact absurd hi hpush
    · exact absurd hi hcall

/-- An execution from a canonical memory keeps every byte but the one a push stores to (R43, R44). -/
theorem exec_read_other (hs : Memory.wf s.mem) {addr : Nat} (ha : (addr : Int) ≠ pushAddr s) :
    t.mem.read addr = s.mem.read addr := by
  rcases exec_inv h with ⟨e, -, rfl⟩ | hd
  · rfl
  · rcases hd.mem with hm | ⟨-, hsp, v, hm⟩ <;> rw [hm]
    have hpos : 0 < s.sp.toNat := Nat.pos_of_ne_zero fun hc => hsp (BitVec.eq_of_toNat_eq hc)
    rw [read_pushed hs, if_neg (by unfold pushAddr at ha; omega)]

/-- An execution of anything but CMP keeps FL (R19). -/
theorem exec_keeps_fl (hcmp : i.mnemonic ≠ .cmp) : t.fl = s.fl := by
  rcases exec_inv h with ⟨e, -, rfl⟩ | hd
  · rfl
  · exact hd.fl.resolve_right fun hc => hcmp hc.1

/-- An execution of anything but PRN keeps OUT (R27). -/
theorem exec_keeps_out (hprn : i.mnemonic ≠ .prn) : t.out = s.out := by
  rcases exec_inv h with ⟨e, -, rfl⟩ | hd
  · rfl
  · exact hd.out.resolve_right fun ⟨r, hi, _⟩ => hprn (by rw [hi]; rfl)

/-- An execution of anything but HLT keeps the status or enters Halted on a fatal error (R152, R153). -/
theorem exec_status (hhlt : i.mnemonic ≠ .hlt) : StatusKeptOrFatal s t := by
  rcases exec_inv h with ⟨e, -, rfl⟩ | hd
  · exact .inr ⟨e.kind, e.kind_ne_none, rfl⟩
  · obtain ⟨herr, herrpc, hrun | ⟨hi, -⟩⟩ := hd.status
    · exact .inl ⟨hrun, herr, herrpc⟩
    · exact absurd (by rw [hi]; rfl) hhlt

end

/-- The instructions with a result operand are no HLT, PRN or CMP and move no stack (R13). -/
theorem mnemonic_of_resultOperand {i : Instr} {a : RegOperand} (h : resultOperand i = some a) :
    i.mnemonic ≠ .hlt ∧ i.mnemonic ≠ .prn ∧ i.mnemonic ≠ .cmp ∧ i.mnemonic ∉ stackRows := by
  revert h
  cases i <;> simp [resultOperand, Instr.mnemonic, stackRows]

theorem not_push_call_of_not_stackRow {m : Mnemonic} (h : m ∉ stackRows) : m ≠ .push ∧ m ≠ .call :=
  ⟨by rintro rfl; exact h (by decide), by rintro rfl; exact h (by decide)⟩

/-- Settles O38: `exec_reg` and the frame of memory, FL, OUT and status, for rows that are none of their exceptions. -/
theorem resultInstructionsFrame : Obligations.ResultInstructionsFrame := by
  intro i a s t ha h
  obtain ⟨hhlt, hprn, hcmp, hstack⟩ := mnemonic_of_resultOperand ha
  obtain ⟨hpush, hcall⟩ := not_push_call_of_not_stackRow hstack
  refine ⟨fun q hq => ?_, exec_keeps_mem h hpush hcall, exec_keeps_fl h hcmp, exec_keeps_out h hprn, exec_status h hhlt⟩
  rcases exec_reg h q with hkept | hres | rfl | ⟨-, hi⟩
  · exact hkept
  · exact absurd (Option.some.inj (hres.symm.trans ha)) hq
  · exact absurd (by simp [Instr.mnemonic, stackRows]) hstack
  · exact absurd hi hstack

/-- An execution of an instruction with no result operand that moves no stack keeps every register (R13). -/
theorem exec_keeps_regs {i : Instr} {s t : State} (h : exec i s = .next t) (hres : resultOperand i = none)
    (hstack : i.mnemonic ∉ stackRows) (q : RegIndex) : t.reg q = s.reg q := by
  rcases exec_reg h q with hkept | hi | rfl | ⟨-, hi⟩
  · exact hkept
  · rw [hres] at hi; cases hi
  · exact absurd (by simp [Instr.mnemonic, stackRows]) hstack
  · exact absurd hi hstack

/-- Settles O39: none of the six has a result operand or moves the stack; FL, OUT and status by the row. -/
theorem registerPreservingInstructionsFrame : Obligations.RegisterPreservingInstructionsFrame := by
  intro a b s t
  refine ⟨fun i hi h => ?_, fun i hi h => exec_keeps_fl h ?_, fun i hi h => exec_keeps_out h ?_,
    fun i hi h => exec_status h ?_, fun h => ?_⟩
  · have hrow : resultOperand i = none ∧ i.mnemonic ∉ stackRows := by
      revert i; simp [resultOperand, Instr.mnemonic, stackRows]
    obtain ⟨hpush, hcall⟩ := not_push_call_of_not_stackRow hrow.2
    exact ⟨exec_keeps_regs h hrow.1 hrow.2, exec_keeps_mem h hpush hcall⟩
  · revert i; simp [Instr.mnemonic]
  · revert i; simp [Instr.mnemonic]
  · revert i; simp [Instr.mnemonic]
  · cases h; exact ⟨rfl, rfl⟩

/-- Settles O40: memory by what a push stores, registers by `exec_reg`. -/
theorem stackWritersFrame : Obligations.StackWritersFrame := by
  intro a s t hs i hi h
  have hrow : resultOperand i = none ∧ i.mnemonic ≠ .pop ∧ i.mnemonic ≠ .cmp ∧ i.mnemonic ≠ .prn ∧
      i.mnemonic ≠ .hlt := by
    revert i; simp [resultOperand, Instr.mnemonic]
  obtain ⟨hres, hpop, hcmp, hprn, hhlt⟩ := hrow
  refine ⟨fun addr ha => exec_read_other h hs ha, fun q hq => ?_, exec_keeps_fl h hcmp, exec_keeps_out h hprn,
    exec_status h hhlt⟩
  rcases exec_reg h q with hkept | hi | rfl | ⟨hsp, -⟩
  · exact hkept
  · rw [hres] at hi; cases hi
  · exact absurd rfl hpop
  · exact absurd hsp hq

/-- Settles O41: neither stores a byte, and `exec_reg` names the registers each may change. -/
theorem stackReadersFrame : Obligations.StackReadersFrame := by
  intro a s t
  refine ⟨fun h q hsp hq => ?_, fun h q hsp => ?_, fun i hi h => ?_⟩
  · rcases exec_reg h q with hkept | hi | hi | ⟨hi, -⟩
    · exact hkept
    · cases hi
    · exact absurd (Instr.pop.inj hi).symm hq
    · exact absurd hi hsp
  · rcases exec_reg h q with hkept | hi | hi | ⟨hi, -⟩
    · exact hkept
    · cases hi
    · cases hi
    · exact absurd hi hsp
  · have hrow : i.mnemonic ≠ .push ∧ i.mnemonic ≠ .call ∧ i.mnemonic ≠ .cmp ∧ i.mnemonic ≠ .prn ∧
        i.mnemonic ≠ .hlt := by
      revert i; simp [Instr.mnemonic]
    obtain ⟨hpush, hcall, hcmp, hprn, hhlt⟩ := hrow
    exact ⟨exec_keeps_mem h hpush hcall, exec_keeps_fl h hcmp, exec_keeps_out h hprn, exec_status h hhlt⟩

end Sys2Proof.Machine

namespace Sys2Proof.Machine

/-! ### What a step did, from what it left -/

theorem pc_add_two {s : State} (h : s.pc.toNat ≤ 253) : (s.pc + 2).toNat = s.pc.toNat + 2 := by bv_omega

theorem pc_add_three {s : State} (h : s.pc.toNat ≤ 252) : (s.pc + 3).toNat = s.pc.toNat + 3 := by bv_omega

/-- A completed instruction other than HLT advances `pc` by 2 or 3 without wrapping, or assigns it a register's byte or
the byte at SP (R15 to R17). -/
theorem Done.pc {i : Instr} {s t : State} (h : Done i s t) :
    i = .hlt ∨ t.pc.toNat = s.pc.toNat + 2 ∨ t.pc.toNat = s.pc.toNat + 3 ∨ (∃ r : RegIndex, t.pc = s.reg r) ∨
      t.pc = s.mem.read s.sp.toNat := by
  cases i <;> simp only [Done, AluDone, JumpDone] at h
  case hlt => exact .inl rfl
  case prn | not => obtain ⟨r, rfl, hpc, rfl⟩ := h; exact .inr (.inl (pc_add_two hpc))
  case push | pop => obtain ⟨r, rfl, hpc, -, rfl⟩ := h; exact .inr (.inl (pc_add_two hpc))
  case call => obtain ⟨r, rfl, -, -, rfl⟩ := h; exact .inr (.inr (.inr (.inl ⟨r, rfl⟩)))
  case ret => obtain ⟨-, rfl⟩ := h; exact .inr (.inr (.inr (.inr rfl)))
  case jmp => obtain ⟨r, rfl, rfl⟩ := h; exact .inr (.inr (.inr (.inl ⟨r, rfl⟩)))
  case jeq | jne =>
    obtain ⟨r, rfl, ⟨-, rfl⟩ | ⟨-, hpc, rfl⟩⟩ := h
    · exact .inr (.inr (.inr (.inl ⟨r, rfl⟩)))
    · exact .inr (.inl (pc_add_two hpc))
  case ldi => obtain ⟨r, rfl, hpc, rfl⟩ := h; exact .inr (.inr (.inl (pc_add_three hpc)))
  case cmp => obtain ⟨r, q, rfl, rfl, hpc, rfl⟩ := h; exact .inr (.inr (.inl (pc_add_three hpc)))
  all_goals obtain ⟨r, q, v, rfl, rfl, -, hpc, rfl⟩ := h; exact .inr (.inr (.inl (pc_add_three hpc)))

/-- Settles O52: a machine left running completed an instruction other than HLT, and `Done.pc` says where it went. -/
theorem pcAdvancesOrIsAssigned : Obligations.PcAdvancesOrIsAssigned := by
  intro s t h hrun
  rcases cycle_inv h with ⟨hr, rfl⟩ | ⟨-, ⟨e, -, rfl⟩ | ⟨i, -, -, -, hd⟩⟩
  · rw [hr] at hrun; cases hrun
  · cases hrun
  · rcases hd.pc with rfl | hpc
    · cases hd; cases hrun
    · exact hpc

/-- Settles O46: a fatal entry has an error, and the only completed instruction that changes RUNNING is HLT. -/
theorem cleanStopIsHlt : Obligations.CleanStopIsHlt := by
  intro s t h hrun hstop hnone
  rcases cycle_inv h with ⟨hr, -⟩ | ⟨-, ⟨e, -, rfl⟩ | ⟨i, -, -, hop, hd⟩⟩
  · rw [hr] at hrun; cases hrun
  · exact absurd hnone e.kind_ne_none
  · rcases hd.status.2.2 with hkept | ⟨rfl, rfl⟩
    · rw [hkept, hrun] at hstop; cases hstop
    · exact ⟨hop.symm, rfl⟩

/-- Byte `k` of the fetch window exists only where its address does. -/
theorem fetchWindow_index_inside {k : Nat} {s : State} (h : k < (fetchWindow s).length) :
    k < 3 ∧ s.pc.toNat + k ≤ 255 := by
  have h0 := s.pc.isLt
  rw [fetchWindow_eq, List.length_cons, List.length_append] at h
  split at h <;> split at h <;> simp at h <;> omega

/-- The operands of a fetched instruction are the bytes after its opcode (R46, R62). -/
theorem operands_of_fetch {c : Config} {s : State} {i : Instr} (h : decode c (fetchWindow s) = .ok i) {k : Nat}
    {v : Byte} (hk : i.operands[k]? = some v) : s.mem.read (s.pc.toNat + (k + 1)) = v := by
  obtain ⟨rest, hrest⟩ : ∃ rest, fetchWindow s = s.mem.read s.pc.toNat :: rest := ⟨_, fetchWindow_eq s⟩
  rw [hrest] at h
  obtain ⟨-, hlen, hi⟩ := decode_ok h
  rw [hi, Mnemonic.operands_assemble] at hk
  obtain ⟨hlt, -⟩ := List.getElem?_eq_some_iff.mp hk
  rw [List.length_take] at hlt
  obtain ⟨hk3, hin⟩ := fetchWindow_index_inside (s := s) (k := k + 1) (by rw [hrest, List.length_cons]; omega)
  have hbyte := fetchWindow_getElem? s hk3 hin
  rw [hrest, List.getElem?_cons_succ] at hbyte
  rw [List.getElem?_take_of_lt (by omega)] at hk
  match k with
  | 0 => simpa [hbyte] using hk
  | 1 => simpa [hbyte] using hk
  | k + 2 => cases hk

/-- Settles O50: only a completed PRN changes OUT, and its operand is the byte after the opcode. -/
theorem outputGrowsByPrnOnly : Obligations.OutputGrowsByPrnOnly := by
  intro s t h
  rcases cycle_inv h with ⟨-, rfl⟩ | ⟨-, ⟨e, -, rfl⟩ | ⟨i, hdec, -, hop, hd⟩⟩
  · exact .inl rfl
  · exact .inl rfl
  · rcases hd.out with hkept | ⟨r, rfl, hout⟩
    · exact .inl hkept
    · exact .inr ⟨hop.symm, r, operands_of_fetch hdec (k := 0) rfl, hout⟩

/-! ### Executions that differ only in what they may not read: FL and OUT -/

/-- A state with another flag and another output trace. -/
def State.relabel (f : Flag) (o : List Byte) (s : State) : State := { s with fl := f, out := o }

/-- The state `u` that an execution from `s.relabel f o` answers where one from `s` answers `t`: the same, with FL kept
or set alike, and OUT kept or grown alike. -/
def Relabelled (f : Flag) (o : List Byte) (s t u : State) : Prop :=
  (t.fl = s.fl ∧ t.out = s.out ∧ u = t.relabel f o) ∨
  (t.out = s.out ∧ u = t.relabel t.fl o) ∨
  (t.fl = s.fl ∧ ∃ v, t.out = s.out ++ [v] ∧ u = t.relabel f (o ++ [v]))

/-- Two handlers raise one error or answer states in the relation `P`. -/
def Alike (P : State → State → Prop) (r r' : Except Raise State) : Prop :=
  (∃ e, r = .error e ∧ r' = .error e) ∨ ∃ t u, P t u ∧ r = .ok t ∧ r' = .ok u

section
variable {P : State → State → Prop}

/-- A computation that both handlers begin with. -/
theorem alike_bind {α : Type} (m : Except Raise α) {k k' : α → Except Raise State} (h : ∀ x, Alike P (k x) (k' x)) :
    Alike P (m >>= k) (m >>= k') := by
  cases m with
  | error e => exact .inl ⟨e, rfl, rfl⟩
  | ok x => exact h x

theorem alike_ok {t u : State} (h : P t u) : Alike P (.ok t) (.ok u) := .inr ⟨t, u, h, rfl, rfl⟩

theorem alike_advance {n : Nat} {t u : State} (hpc : u.pc = t.pc) (h : ∀ p, P (t.setPc p) (u.setPc p)) :
    Alike P (advance n t) (advance n u) := by
  unfold advance
  rw [hpc]
  split
  · exact alike_ok (h _)
  · exact .inl ⟨_, rfl, rfl⟩

end

section
variable {P : State → State → Prop} (f : Flag) (o : List Byte) (s : State)

/-- A push reads SP and writes memory and R7 alone (R44). -/
theorem alike_push (v : Byte) {k k' : State → Except Raise State}
    (h : Alike P (k (pushed v s)) (k' ((pushed v s).relabel f o))) :
    Alike P (push v s >>= k) (push v (s.relabel f o) >>= k') := by
  rcases push_cases s v with ⟨hsp, he⟩ | ⟨hsp, he⟩
  · rw [he, push_ok (s.relabel f o) v hsp]; exact h
  · rw [he, push_error (s.relabel f o) v hsp]; exact .inl ⟨_, rfl, rfl⟩

/-- A pop reads SP and memory and writes R7 alone (R45). -/
theorem alike_pop {k k' : Byte × State → Except Raise State}
    (h : Alike P (k (s.mem.read s.sp.toNat, s.setReg spReg (s.sp + 1)))
      (k' (s.mem.read s.sp.toNat, (s.setReg spReg (s.sp + 1)).relabel f o))) :
    Alike P (pop s >>= k) (pop (s.relabel f o) >>= k') := by
  rcases pop_cases s with ⟨hsp, he⟩ | ⟨hsp, he⟩
  · rw [he, pop_ok (s.relabel f o) hsp]; exact h
  · rw [he, pop_error (s.relabel f o) hsp]; exact .inl ⟨_, rfl, rfl⟩

/-- The common ALU handler reads registers and writes one register or FL (R112, R114). -/
theorem alike_aluTwoReg (op : AluOp) (a b : RegOperand) :
    Alike (Relabelled f o s) (aluTwoReg op a b s) (aluTwoReg op a b (s.relabel f o)) := by
  refine alike_bind (checkRegs a b) fun r => alike_bind (aluApply op (s.reg r.1) (s.reg r.2)) fun out => ?_
  cases out with
  | result v => exact alike_advance rfl fun p => .inl ⟨rfl, rfl, rfl⟩
  | flagOutcome g => exact alike_advance rfl fun p => .inr (.inl ⟨rfl, rfl⟩)

/-- A conditional jump's handler reads FL only by whether the jump is taken (R133, R134). -/
theorem alike_jumpIf {taken taken' : Bool} (h : taken' = taken) (a : RegOperand) :
    Alike (Relabelled f o s) (jumpIf taken a s) (jumpIf taken' a (s.relabel f o)) := by
  subst h
  refine alike_bind (checkReg a) fun r => ?_
  cases taken' with
  | true => exact alike_ok (.inl ⟨rfl, rfl, rfl⟩)
  | false => exact alike_advance rfl fun p => .inl ⟨rfl, rfl, rfl⟩

variable {f o s}

theorem relabelled_enterFatal (e : Raise) :
    Relabelled f o s (enterFatal e s) (enterFatal e (s.relabel f o)) := .inl ⟨rfl, rfl, rfl⟩

theorem Alike.complete {r r' : Except Raise State} (h : Alike (Relabelled f o s) r r') :
    ∃ t u, Relabelled f o s t u ∧ complete s r = .next t ∧ complete (s.relabel f o) r' = .next u := by
  rcases h with ⟨e, rfl, rfl⟩ | ⟨t, u, hP, rfl, rfl⟩
  · exact ⟨_, _, relabelled_enterFatal e, rfl, rfl⟩
  · exact ⟨t, u, hP, rfl, rfl⟩

/-- Executions from states that differ in FL and OUT answer states that differ only there; a conditional jump does where
the two flags agree on being Equal (R19, R27). -/
theorem exec_relabel (i : Instr) (hf : i.mnemonic = .jeq ∨ i.mnemonic = .jne → f.isEqual = s.fl.isEqual) :
    ∃ t u, Relabelled f o s t u ∧ exec i s = .next t ∧ exec i (s.relabel f o) = .next u := by
  cases i with
  | hlt => exact ⟨s.stop, (s.relabel f o).stop, .inl ⟨rfl, rfl, rfl⟩, rfl, rfl⟩
  | ldi a b =>
    exact Alike.complete <| alike_bind (checkReg a) fun r => alike_advance rfl fun p => .inl ⟨rfl, rfl, rfl⟩
  | prn a =>
    exact Alike.complete <| alike_bind (checkReg a) fun r =>
      alike_advance rfl fun p => .inr (.inr ⟨rfl, s.reg r, rfl, rfl⟩)
  | push a =>
    exact Alike.complete <| alike_bind (checkReg a) fun r => alike_push f o s (s.reg r) <|
      alike_advance rfl fun p => .inl ⟨rfl, rfl, rfl⟩
  | pop a =>
    exact Alike.complete <| alike_bind (checkReg a) fun r => alike_pop f o s <|
      alike_advance rfl fun p => .inl ⟨rfl, rfl, rfl⟩
  | call a =>
    exact Alike.complete <| alike_bind (checkReg a) fun r => alike_bind (returnAddress s) fun ret =>
      alike_push f o s ret <| alike_ok (.inl ⟨rfl, rfl, rfl⟩)
  | ret => exact Alike.complete <| alike_pop f o s <| alike_ok (.inl ⟨rfl, rfl, rfl⟩)
  | jmp a => exact Alike.complete <| alike_bind (checkReg a) fun r => alike_ok (.inl ⟨rfl, rfl, rfl⟩)
  | jeq a => exact (alike_jumpIf f o s (hf (.inl rfl)) a).complete
  | jne a => exact (alike_jumpIf f o s (congrArg not (hf (.inr rfl))) a).complete
  | not a =>
    exact Alike.complete <| alike_bind (checkReg a) fun r => alike_advance rfl fun p => .inl ⟨rfl, rfl, rfl⟩
  | cmp a b => exact (alike_aluTwoReg f o s .cmp a b).complete
  | add a b => exact (alike_aluTwoReg f o s .add a b).complete
  | sub a b => exact (alike_aluTwoReg f o s .sub a b).complete
  | mul a b => exact (alike_aluTwoReg f o s .mul a b).complete
  | div a b => exact (alike_aluTwoReg f o s .div a b).complete
  | mod a b => exact (alike_aluTwoReg f o s .mod a b).complete
  | and a b => exact (alike_aluTwoReg f o s .and a b).complete
  | or a b => exact (alike_aluTwoReg f o s .or a b).complete
  | xor a b => exact (alike_aluTwoReg f o s .xor a b).complete
  | shl a b => exact (alike_aluTwoReg f o s .shl a b).complete
  | shr a b => exact (alike_aluTwoReg f o s .shr a b).complete

/-- A cycle from a state that differs only in OUT answers a state that differs only in OUT (R27). -/
theorem cycle_relabel_out (c : Config) :
    ∃ t u, Relabelled s.fl o s t u ∧ cycle c s = .next t ∧ cycle c (s.relabel s.fl o) = .next u := by
  cases hr : s.running with
  | false => exact ⟨_, _, .inl ⟨rfl, rfl, rfl⟩, cycle_halted c hr, cycle_halted c (s := s.relabel s.fl o) hr⟩
  | true =>
    have hr' : (s.relabel s.fl o).running = true := hr
    cases hd : decode c (fetchWindow s) with
    | error r => exact ⟨_, _, relabelled_enterFatal _, cycle_rejected hr hd, cycle_rejected hr' hd⟩
    | ok i =>
      have hd' : decode c (fetchWindow (s.relabel s.fl o)) = .ok i := hd
      rw [cycle_running c hr, cycle_running c hr', hd, hd']
      exact exec_relabel i fun _ => rfl

end

/-- With the flag left alone, `Relabelled` is the same state but for OUT, grown alike. -/
theorem Relabelled.out {o : List Byte} {s t u : State} (h : Relabelled s.fl o s t u) :
    ∃ w, t.out = s.out ++ w ∧ u = { t with out := o ++ w } := by
  rcases h with ⟨hfl, hout, rfl⟩ | ⟨hout, rfl⟩ | ⟨hfl, v, hout, rfl⟩
  · exact ⟨[], by rw [hout, List.append_nil], by rw [← hfl, List.append_nil]; rfl⟩
  · exact ⟨[], by rw [hout, List.append_nil], by rw [List.append_nil]; rfl⟩
  · exact ⟨[v], hout, by rw [← hfl]; rfl⟩

/-- With the trace left alone, `Relabelled` is the same state but for FL. -/
theorem Relabelled.fl {f : Flag} {s t u : State} (h : Relabelled f s.out s t u) : ∃ g, u = { t with fl := g } := by
  rcases h with ⟨-, hout, rfl⟩ | ⟨hout, rfl⟩ | ⟨-, v, hout, rfl⟩
  · exact ⟨f, by rw [← hout]; rfl⟩
  · exact ⟨t.fl, by rw [← hout]; rfl⟩
  · exact ⟨f, by rw [← hout]; rfl⟩

/-- Settles O51: a cycle from a state that differs in OUT alone. -/
theorem outputIsNeverRead : Obligations.OutputIsNeverRead := by
  intro s t o h
  obtain ⟨t', u, hrel, ht, hu⟩ := cycle_relabel_out (s := s) (o := o) Config.standard
  obtain rfl : t = t' := Host.Outcome.next.inj (h.symm.trans ht)
  obtain ⟨w, hw, rfl⟩ := hrel.out
  exact ⟨w, hw, hu⟩

/-- An execution from a state that differs in FL answers a state that differs in FL alone; a conditional jump does where
the two flags agree on being Equal (R18, R19). -/
theorem exec_other_flag {i : Instr} {f : Flag} {s t : State}
    (hf : i.mnemonic = .jeq ∨ i.mnemonic = .jne → f.isEqual = s.fl.isEqual) (h : exec i s = .next t) :
    ∃ g, exec i { s with fl := f } = .next { t with fl := g } := by
  obtain ⟨t', u, hrel, ht, hu⟩ := exec_relabel (o := s.out) i hf
  obtain rfl : t = t' := Host.Outcome.next.inj (h.symm.trans ht)
  obtain ⟨g, rfl⟩ := hrel.fl
  exact ⟨g, hu⟩

/-- An instruction other than JEQ and JNE reads no flag (R19). -/
theorem exec_other_flag_of_not_jump {i : Instr} {f : Flag} {s t : State} (hjeq : i.mnemonic ≠ .jeq)
    (hjne : i.mnemonic ≠ .jne) (h : exec i s = .next t) : ∃ g, exec i { s with fl := f } = .next { t with fl := g } :=
  exec_other_flag (fun hi => (hi.elim hjeq hjne).elim) h

/-- Settles O48: the writer by the frame of FL, the readers by `exec_other_flag`. -/
theorem flagIsWrittenByCmpAndReadByJumps : Obligations.FlagIsWrittenByCmpAndReadByJumps := by
  refine ⟨fun i s t h hne => ?_, fun i f s t => exec_other_flag_of_not_jump, fun i f s t hf h => ?_⟩
  · exact Classical.byContradiction fun hcmp => hne (exec_keeps_fl h hcmp)
  · exact exec_other_flag (fun _ => decide_eq_decide.mpr hf) h

/-- A cycle that changes FL ran the CMP of the dispatch table, and FL is a comparison's outcome (R18). -/
theorem cycle_fl {c : Config} {s t : State} (h : cycle c s = .next t) :
    t.fl = s.fl ∨ (lookup c (s.mem.read s.pc.toNat) = some .cmp ∧ ∃ x y, t.fl = compareFlag x y) := by
  rcases cycle_inv h with ⟨-, rfl⟩ | ⟨-, ⟨e, -, rfl⟩ | ⟨i, hdec, -, -, hd⟩⟩
  · exact .inl rfl
  · exact .inl rfl
  · refine hd.fl.imp_right fun ⟨hcmp, hout⟩ => ⟨?_, hout⟩
    rw [fetchWindow_eq] at hdec
    rw [(decode_ok hdec).1, hcmp]

theorem compareFlag_cases (x y : Byte) :
    compareFlag x y = .equal ∨ compareFlag x y = .greater ∨ compareFlag x y = .less := by
  cases h : compareFlag x y with
  | unset => exact absurd h (compareFlag_ne_unset x y)
  | equal => exact .inl rfl
  | greater => exact .inr (.inl rfl)
  | less => exact .inr (.inr rfl)

/-- Settles O47: CMP's effect, the frame and the readers of FL, and what a cycle makes of it. -/
theorem flagPersistsUntilTheNextCompare : Obligations.FlagPersistsUntilTheNextCompare := by
  refine ⟨rfl, fun r q s hpc => ?_, fun i s t hcmp h => exec_keeps_fl h hcmp,
    fun i f s t => exec_other_flag_of_not_jump, fun c s t h hop => ?_, fun c s t h hset => ?_⟩
  · exact ⟨_, exec_of_done (i := .cmp r.operand q.operand) ⟨r, q, rfl, rfl, hpc, rfl⟩, rfl, compareFlag_cases _ _⟩
  · exact (cycle_fl h).resolve_right fun hcmp => hop hcmp.1
  · rcases cycle_fl h with hkept | ⟨-, x, y, hout⟩
    · rwa [hkept]
    · rw [hout]; exact compareFlag_ne_unset x y

end Sys2Proof.Machine

namespace Sys2Proof

/-! ### Decoding an encoding -/

/-- An instruction is what its row makes of its operand bytes, whatever bytes follow them (R67). -/
theorem Instr.assemble_operands (i : Instr) (rest : List Byte) :
    i.mnemonic.assemble ((i.operands ++ rest).getD 0 0) ((i.operands ++ rest).getD 1 0) = i := by
  cases i <;> rfl

theorem Instr.length_operands (i : Instr) : i.operands.length = i.mnemonic.arity := by
  cases i <;> rfl

theorem Mnemonic.arity_le_two (m : Mnemonic) : m.arity ≤ 2 := by
  cases m <;> decide

/-- Bytes that begin with the encoding of an instruction of the table decode to it (R67, R71). -/
theorem decode_of_encode_prefix {c : Config} (hc : c.Valid) {i : Instr} (hi : c.inTable i.mnemonic = true)
    {bs : List Byte} (h : encode c i <+: bs) : decode c bs = .ok i := by
  obtain ⟨rest, rfl⟩ := h
  have hlen : ¬ (i.operands ++ rest).length < i.mnemonic.arity := by
    rw [List.length_append, i.length_operands]; omega
  simp only [encode, List.cons_append, decode, lookup_valid hc hi]
  rw [if_neg hlen, i.assemble_operands]

/-- The default table finds every row by its own opcode (R70). -/
theorem lookup_standardOpcode (m : Mnemonic) : lookup Config.standard (standardOpcode m) = some m := by
  cases m <;> rfl

/-- The default opcode map is injective: the table's lookup undoes it (R71). -/
theorem Config.standard_valid : Config.standard.Valid := fun m n _ _ (h : standardOpcode m = standardOpcode n) =>
  Option.some.inj <| by rw [← lookup_standardOpcode m, h, lookup_standardOpcode]

end Sys2Proof

namespace Sys2Proof.Machine

/-! ### Memory accesses -/

theorem memRead_inside {addr : Int} (s : State) (h : inRange addr) : memRead addr s = .ok (s.mem.read addr.toNat) :=
  if_pos h

theorem not_inRange {addr : Int} (h : addr < 0 ∨ 255 < addr) : ¬ inRange addr := by
  rintro ⟨h0, h255⟩; omega

/-- A write that completes was in range, and stored its byte (R41). -/
theorem memWrite_inv {addr : Int} {v : Byte} {s t : State} (h : memWrite addr v s = .ok t) :
    inRange addr ∧ t = s.setMem (s.mem.write addr.toNat v) := by
  by_cases hin : inRange addr
  · rw [memWrite_inside s v hin] at h; cases h; exact ⟨hin, rfl⟩
  · rw [memWrite_outside s v hin] at h; cases h

/-- A constructed machine reads the image's bytes, and 0 above them (R26, R30). -/
theorem read_construct {img : List Byte} {t : State} (h : construct img = .next t) (a : Nat) :
    t.mem.read a = img.getD a 0 := by
  obtain ⟨hfits, hlong⟩ := constructionPlacesTheImage img
  rcases Nat.lt_or_ge 256 img.length with hlen | hlen
  · rw [hlong hlen] at h; cases h
  · obtain ⟨t', ht', hbelow, habove, -⟩ := hfits hlen
    obtain rfl : t = t' := Host.Outcome.next.inj (h.symm.trans ht')
    rcases Nat.lt_or_ge a img.length with ha | ha
    · rw [hbelow a ha, List.getD_eq_getElem?_getD, List.getElem?_eq_getElem ha, Option.getD_some]
    · rw [habove a ha, List.getD_eq_getElem?_getD, List.getElem?_eq_none ha, Option.getD_none]

/-- After a write the written address reads the byte, and every other address, in range or not, what it read before
(R40, R41). -/
theorem memRead_memWrite {addr : Int} {v : Byte} {s t : State} (hs : Memory.wf s.mem) (h : memWrite addr v s = .ok t) :
    memRead addr t = .ok v ∧ ∀ other ≠ addr, memRead other t = memRead other s := by
  obtain ⟨hin, rfl⟩ := memWrite_inv h
  refine ⟨?_, fun other hne => ?_⟩
  · rw [memRead_inside _ hin, State.setMem_mem, Memory.read_write hs, if_pos rfl]
  · by_cases ho : inRange other
    · have hcell : addr.toNat ≠ other.toNat := by have := hin.1; have := ho.1; omega
      rw [memRead_inside _ ho, memRead_inside _ ho, State.setMem_mem, Memory.read_write hs, if_neg hcell]
    · rw [memRead_outside _ ho, memRead_outside _ ho]

/-- Settles O4: the two outcomes of a read, the image a construction places, and the read after a write. -/
theorem memReadReturnsTheLatestWrite : Obligations.MemReadReturnsTheLatestWrite := by
  refine ⟨fun addr s h => memRead_outside s (not_inRange h), fun addr s h0 h255 => memRead_inside s ⟨h0, h255⟩,
    fun addr img t h0 h255 h => ?_, fun addr other v s t hs h => ?_⟩
  · rw [memRead_inside t ⟨h0, h255⟩, read_construct h]
  · obtain ⟨hsame, hother⟩ := memRead_memWrite hs h
    exact ⟨hsame, hother other⟩

/-- Settles O5: a write in range replaces memory alone, and `Memory.read_write` says by which memory. -/
theorem memWriteChangesExactlyOneCell : Obligations.MemWriteChangesExactlyOneCell := by
  refine ⟨fun addr v s h => memWrite_outside s v (not_inRange h), fun addr v s h0 h255 hs => ?_⟩
  have hread := Memory.read_write hs addr.toNat v
  refine ⟨_, memWrite_inside s v ⟨h0, h255⟩, ?_, fun a ha => ?_, rfl⟩
  · rw [State.setMem_mem, hread, if_pos rfl]
  · rw [State.setMem_mem, hread, if_neg ha.symm]

/-! ### The stack primitives -/

/-- Settles O7: what a push answers, read by `read_pushed` and `reg_pushed_other`. -/
theorem pushStoresBelowTheStackPointer : Obligations.PushStoresBelowTheStackPointer := by
  refine fun v s => ⟨push_error s v, fun hsp hs => ?_⟩
  refine ⟨_, push_ok s v hsp, sp_pushed s v, ?_, fun a ha => ?_, fun r => reg_pushed_other s v, rfl⟩
  · rw [read_pushed hs, if_pos rfl]
  · rw [read_pushed hs, if_neg ha.symm]

/-- Settles O8: what a pop answers. -/
theorem popReadsAtTheStackPointer : Obligations.PopReadsAtTheStackPointer := fun s =>
  ⟨pop_error s, fun hsp => ⟨_, pop_ok s hsp, State.sp_setReg s (s.sp + 1),
    fun r => State.reg_setReg_other s spReg r (s.sp + 1), rfl⟩⟩

/-- A handler that checks a legal register and goes on to raise halts the machine with that error (R152). -/
theorem complete_checked_error (r : RegIndex) {s : State} {k : RegIndex → Except Raise State} {e : Raise}
    (h : k r = .error e) : complete s (checkReg r.operand >>= k) = .next (s.fatal e.kind) := by
  rw [checkReg_operand, except_bind_ok, h]; rfl

/-- CALL halts with OutOfBounds where its return address is no address or SP is 0 (R130, R155). -/
theorem exec_call_outOfBounds (r : RegIndex) {s : State} (h : s.sp = 0 ∨ 253 < s.pc.toNat) :
    exec (.call r.operand) s = .next (s.fatal .outOfBounds) := by
  rcases returnAddress_cases s with ⟨hpc, hret⟩ | ⟨hpc, hret⟩
  · have hsp : s.sp = 0 := h.resolve_right (by omega)
    refine complete_checked_error r (e := .outOfBounds (-1)) ?_
    rw [hret, except_bind_ok, push_error s _ hsp, except_bind_error]
  · refine complete_checked_error r (e := .outOfBounds (s.pc.toNat + 2 : Nat)) ?_
    rw [hret, except_bind_error]

/-- Settles O28: the error of the primitive, before any advance, is the error of the instruction. -/
theorem stackLeavingMemoryIsOutOfBounds : Obligations.StackLeavingMemoryIsOutOfBounds := by
  refine fun r s => ⟨fun hsp => ⟨?_, exec_call_outOfBounds r (.inl hsp)⟩, fun hsp => ⟨?_, ?_⟩,
    fun hpc => exec_call_outOfBounds r (.inr hpc)⟩
  · refine complete_checked_error r (e := .outOfBounds (-1)) ?_
    rw [push_error s _ hsp, except_bind_error]
  · refine complete_checked_error r (e := .outOfBounds 256) ?_
    rw [pop_error s hsp, except_bind_error]
  · show complete s (pop s >>= _) = _
    rw [pop_error s hsp]; rfl

/-! ### The cycle and what stands in memory -/

/-- Where the bytes of an encoding stand from `pc` on, all in memory, the fetch sees them first (R46, R62). -/
theorem encode_prefix_fetchWindow {c : Config} {i : Instr} {s : State} (hfits : s.pc.toNat + i.length ≤ 256)
    (h : ∀ (k : Nat) (hk : k < (encode c i).length), s.mem.read (s.pc.toNat + k) = (encode c i)[k]) :
    encode c i <+: fetchWindow s := by
  refine List.prefix_iff_getElem?.mpr fun k hk => ?_
  have hlen : (encode c i).length = i.operands.length + 1 := rfl
  have harity := i.mnemonic.arity_le_two
  rw [← i.length_operands] at harity
  unfold Instr.length at hfits
  rw [fetchWindow_getElem? s (by omega) (by omega), h k hk]

/-- Settles O11: the fetch sees the encoding, and the decoder gives the instruction back. -/
theorem cycleRunsTheEncodedBytes : Obligations.CycleRunsTheEncodedBytes := by
  intro c i s hc hi hrun hfits h
  rw [cycle_running c hrun, decode_of_encode_prefix hc hi (encode_prefix_fetchWindow hfits h)]

theorem sp_toNat_pos {s : State} (h : s.sp ≠ 0) : 0 < s.sp.toNat :=
  Nat.pos_of_ne_zero fun hc => h (BitVec.eq_of_toNat_eq hc)

/-- A push stores at the address below SP (R44). -/
theorem eq_pushAddr_iff {s : State} (h : s.sp ≠ 0) (a : Nat) : (a : Int) = pushAddr s ↔ a = s.sp.toNat - 1 := by
  have := sp_toNat_pos h
  unfold pushAddr
  omega

/-- Settles O49: only a completed PUSH or CALL changes memory, by a push. -/
theorem onlyPushAndCallWriteMemory : Obligations.OnlyPushAndCallWriteMemory := by
  intro s t a hs h hne
  rcases cycle_inv h with ⟨-, rfl⟩ | ⟨-, ⟨e, -, rfl⟩ | ⟨i, -, -, hop, hd⟩⟩
  · exact absurd rfl hne
  · exact absurd rfl hne
  · rcases hd.mem with hm | ⟨hi, hsp, v, hm⟩ <;> rw [hm] at hne
    · exact absurd rfl hne
    · have hpos := sp_toNat_pos hsp
      rw [read_pushed hs, ne_eq, ite_eq_right_iff, Classical.not_imp] at hne
      refine ⟨?_, hsp, by omega⟩
      rw [← hop]
      exact hi.imp (congrArg standardOpcode) (congrArg standardOpcode)

/-! ### A pushed byte is fetched -/

/-- In every state in which the address a push stored to still reads as after the push, a fetch that reaches it reads the
pushed byte (R53). -/
theorem fetchWindow_pushed {v : Byte} {s u : State} (hs : Memory.wf s.mem) (hsp : s.sp ≠ 0) {k : Nat} (hk : k < 3)
    (hu : u.mem.read (s.sp.toNat - 1) = (pushed v s).mem.read (s.sp.toNat - 1))
    (haddr : ((u.pc.toNat + k : Nat) : Int) = pushAddr s) : (fetchWindow u)[k]? = some v := by
  have hsp256 := s.sp.isLt
  rw [eq_pushAddr_iff hsp] at haddr
  rw [fetchWindow_getElem? u hk (by omega), haddr, hu, read_pushed hs, if_pos rfl]

/-- PUSH and CALL with their stack and `pc` in memory complete, with the memory a push of their byte leaves (R120,
R130). -/
theorem done_push_or_call {r : RegIndex} {s : State} (hpc : s.pc.toNat ≤ 253) (hsp : s.sp ≠ 0) :
    ∀ p ∈ [(Instr.push r.operand, s.reg r), (.call r.operand, s.pc + 2)],
      ∃ t, Done p.1 s t ∧ t.running = s.running ∧ t.mem = (pushed p.2 s).mem := by
  simp only [List.forall_mem_cons]
  exact ⟨⟨_, ⟨r, rfl, hpc, hsp, rfl⟩, rfl, rfl⟩, ⟨_, ⟨r, rfl, hpc, hsp, rfl⟩, rfl, rfl⟩, nofun⟩

/-- Settles O53: PUSH and CALL complete with the memory their push leaves, and `fetchWindow_pushed` reads it. -/
theorem pushedByteIsFetchedNext : Obligations.PushedByteIsFetchedNext := by
  intro c r s hs hrun hpc hsp p hp hdec
  obtain ⟨t, hd, htrun, hmem⟩ := done_push_or_call hpc hsp p hp
  refine ⟨t, ?_, htrun.trans hrun, fun haddr => ?_, fun u k hk hu haddr => ?_⟩
  · rw [cycle_running c hrun, hdec]
    exact exec_of_done hd
  · rw [List.head?_eq_getElem?]
    exact fetchWindow_pushed hs hsp (by decide) (by rw [hmem]) haddr
  · exact fetchWindow_pushed hs hsp hk (by rw [hu, hmem]) haddr

/-- Under the default table a byte 0x01 at `pc` is executed as HLT (R60, R140). -/
theorem step_hlt_byte {s : State} (hrun : s.running = true) (h : s.mem.read s.pc.toNat = 0x01) :
    step s = .next s.stop := by
  refine cycleRunsTheEncodedBytes Config.standard .hlt s Config.standard_valid rfl hrun s.pc.isLt fun k hk => ?_
  obtain rfl : k = 0 := Nat.lt_one_iff.mp hk
  exact h

/-- Under the default table the bytes 0x45 and `r` at `pc` are executed as PUSH of `r` (R60, R120). -/
theorem step_push_bytes {r : RegIndex} {s : State} (hrun : s.running = true) (hpc : s.pc.toNat ≤ 253) (hsp : s.sp ≠ 0)
    (h0 : s.mem.read s.pc.toNat = 0x45) (h1 : s.mem.read (s.pc.toNat + 1) = r.operand) :
    step s = .next ((pushed (s.reg r) s).setPc (s.pc + 2)) := by
  have hfits : s.pc.toNat + (Instr.push r.operand).length ≤ 256 := by
    show s.pc.toNat + 2 ≤ 256
    omega
  refine (cycleRunsTheEncodedBytes Config.standard (.push r.operand) s Config.standard_valid rfl hrun hfits
    fun k hk => ?_).trans (exec_of_done ⟨r, rfl, hpc, hsp, rfl⟩)
  match k, hk with
  | 0, _ => exact h0
  | 1, _ => exact h1

/-- Settles O59: the PUSH leaves the HLT byte where it leaves `pc`. -/
theorem pushedHltStopsTheMachine : Obligations.PushedHltStopsTheMachine := by
  intro r s hs hrun herr hpc h0 h1 hreg haddr
  have hsp : s.sp ≠ 0 := fun hc => by rw [hc] at haddr; cases haddr
  have hpush := step_push_bytes hrun (by omega) hsp h0 h1
  have hhlt : (pushed (s.reg r) s).mem.read (s.pc + 2).toNat = 0x01 := by
    rw [read_pushed hs, pc_add_two (by omega), if_pos (by omega), hreg]
  exact ⟨_, _, hpush, step_hlt_byte hrun hhlt, ⟨rfl, herr⟩, rfl⟩

end Sys2Proof.Machine

namespace Sys2Proof

/-! ### What the decoder answers -/

/-- A first byte that is no opcode is refused, whatever follows it (R63). -/
theorem decode_unknown {c : Config} {op : Byte} (h : lookup c op = none) (rest : List Byte) :
    decode c (op :: rest) = .error (.unknownOpcode op) := by
  simp only [decode, h]

/-- An opcode with fewer bytes after it than its row's arity is refused (R62). -/
theorem decode_missing {c : Config} {op : Byte} {m : Mnemonic} (h : lookup c op = some m) {rest : List Byte}
    (hlen : rest.length < m.arity) : decode c (op :: rest) = .error (.operandMissing m) := by
  simp only [decode, h]
  exact if_pos hlen

/-- An opcode with the bytes its row's arity asks for is accepted, with the row's instruction (R62, R63). -/
theorem decode_assembled {c : Config} {op : Byte} {m : Mnemonic} (h : lookup c op = some m) {rest : List Byte}
    (hlen : m.arity ≤ rest.length) : decode c (op :: rest) = .ok (m.assemble (rest.getD 0 0) (rest.getD 1 0)) := by
  simp only [decode, h]
  exact if_neg (Nat.not_lt_of_le hlen)

/-- The decoder reads the configuration at its first byte alone. -/
theorem decode_congr {c d : Config} {op : Byte} (h : lookup c op = lookup d op) (rest : List Byte) :
    decode c (op :: rest) = decode d (op :: rest) := by
  simp only [decode, h]

/-- Settles O54: bytes after an encoding leave it at the beginning. -/
theorem decodeInvertsEncode : Obligations.DecodeInvertsEncode :=
  fun c i rest hc hi => decode_of_encode_prefix hc hi (List.prefix_append (encode c i) rest)

/-- Up to two bytes that are there are taken alike from a list and from its first two bytes. -/
theorem take_first_two {k : Nat} {bs : List Byte} (h2 : k ≤ 2) (hlen : k ≤ bs.length) :
    [bs.getD 0 0, bs.getD 1 0].take k = bs.take k := by
  match k, bs with
  | 0, _ => rfl
  | 1, _ :: _ => rfl
  | 2, _ :: _ :: _ => rfl

/-- Settles O55: the lookup gives the row and its opcode, and the row takes as operands the `arity` bytes after it. -/
theorem decodedBytesAreItsEncoding : Obligations.DecodedBytesAreItsEncoding := by
  intro c bs i h
  match bs with
  | [] => cases h
  | op :: rest =>
    obtain ⟨hlookup, hlen, hi⟩ := decode_ok h
    obtain ⟨htable, hop⟩ := lookup_some hlookup
    have hoperands : i.operands = rest.take i.mnemonic.arity := by
      rw [hi, Mnemonic.operands_assemble, Mnemonic.mnemonic_assemble, take_first_two i.mnemonic.arity_le_two hlen]
    refine ⟨htable, ?_⟩
    rw [Instr.length, i.length_operands, Nat.add_comm, List.take_succ_cons, encode, hop, hoperands]

/-! ### The table without ALU_EXT -/

/-- The configuration with the ten "ext" rows taken out of its table (R74). -/
def Config.withoutExt (c : Config) : Config := { c with aluExt := false }

theorem Config.inTable_withoutExt (c : Config) (m : Mnemonic) :
    c.withoutExt.inTable m = true ↔ m.isExt = false := by
  simp [Config.withoutExt, Config.inTable]

theorem Config.inTable_of_not_ext (c : Config) {m : Mnemonic} (h : m.isExt = false) : c.inTable m = true := by
  simp [Config.inTable, h]

/-- Taking rows out of the table keeps its opcodes distinct (R71, R74). -/
theorem Config.Valid.withoutExt {c : Config} (hc : c.Valid) : c.withoutExt.Valid := fun m n hm hn =>
  hc m n (c.inTable_of_not_ext ((c.inTable_withoutExt m).mp hm)) (c.inTable_of_not_ext ((c.inTable_withoutExt n).mp hn))

/-- A valid table finds exactly the row whose opcode the byte is (R63, R71). -/
theorem lookup_eq_some_iff {c : Config} (hc : c.Valid) {op : Byte} {m : Mnemonic} :
    lookup c op = some m ↔ c.inTable m = true ∧ c.opcodeMap m = op := by
  refine ⟨lookup_some, ?_⟩
  rintro ⟨hm, rfl⟩
  exact lookup_valid hc hm

/-- On a byte that is no "ext" opcode the table finds the same without the "ext" rows as with them (R74). -/
theorem lookup_withoutExt {c : Config} (hc : c.Valid) {op : Byte}
    (h : ∀ m : Mnemonic, m.isExt = true → c.opcodeMap m ≠ op) : lookup c.withoutExt op = lookup c op := by
  refine Option.ext fun m => ?_
  rw [lookup_eq_some_iff hc.withoutExt, lookup_eq_some_iff hc, Config.inTable_withoutExt]
  refine ⟨fun ⟨hm, hop⟩ => ⟨c.inTable_of_not_ext hm, hop⟩, fun ⟨_, hop⟩ => ⟨?_, hop⟩⟩
  exact Bool.eq_false_iff.mpr fun hext => h m hext hop

/-- Without the "ext" rows a valid table has no row for an "ext" opcode (R74). -/
theorem opcodeMap_ne_ext {c : Config} (hc : c.Valid) (hext : c.aluExt = true) {m n : Mnemonic} (hm : m.isExt = true)
    (hn : c.withoutExt.inTable n = true) : c.opcodeMap n ≠ c.opcodeMap m := by
  intro hop
  have hin (k : Mnemonic) : c.inTable k = true := by simp [Config.inTable, hext]
  rw [hc n m (hin n) (hin m) hop, Config.inTable_withoutExt, hm] at hn
  cases hn

/-! ### How many bytes are opcodes -/

theorem Mnemonic.nodup_all : Mnemonic.all.Nodup := by decide

/-- The opcode bytes of the dispatch table (R70, R74). -/
def Config.opcodes (c : Config) : List Byte := (Mnemonic.all.filter c.inTable).map c.opcodeMap

/-- A byte has a row exactly when it is one of the table's opcodes (R63, R72). -/
theorem lookup_isSome_iff (c : Config) (op : Byte) : (lookup c op).isSome = true ↔ op ∈ c.opcodes := by
  unfold Config.opcodes
  rw [List.mem_map]
  constructor
  · intro h
    obtain ⟨m, hm⟩ := Option.isSome_iff_exists.mp h
    obtain ⟨htable, hop⟩ := lookup_some hm
    exact ⟨m, List.mem_filter.mpr ⟨m.mem_all, htable⟩, hop⟩
  · rintro ⟨m, hm, hop⟩
    exact Option.isSome_iff_ne_none.mpr fun hnone => lookup_none.mp hnone m (List.mem_filter.mp hm).2 hop

theorem Config.Valid.nodup_opcodes {c : Config} (hc : c.Valid) : c.opcodes.Nodup := by
  have hrows : (Mnemonic.all.filter c.inTable).Nodup := List.Pairwise.filter c.inTable Mnemonic.nodup_all
  refine List.pairwise_map.mpr (hrows.imp_of_mem fun {m n} hm hn hne hop => hne ?_)
  exact hc m n (List.mem_filter.mp hm).2 (List.mem_filter.mp hn).2 hop

theorem Config.Valid.nodup_opcode_numbers {c : Config} (hc : c.Valid) : (c.opcodes.map BitVec.toNat).Nodup :=
  List.pairwise_map.mpr (hc.nodup_opcodes.imp fun hne heq => hne (BitVec.eq_of_toNat_eq heq))

/-- The numbers of the bytes that have a row are the table's opcodes, each once (R71). -/
theorem opcodes_perm {c : Config} (hc : c.Valid) :
    ((List.range 256).filter fun n => (lookup c (BitVec.ofNat 8 n)).isSome).Perm (c.opcodes.map BitVec.toNat) := by
  refine (List.perm_ext_iff_of_nodup (List.Pairwise.filter _ List.nodup_range) hc.nodup_opcode_numbers).mpr fun n => ?_
  rw [List.mem_filter, List.mem_range, lookup_isSome_iff, List.mem_map]
  constructor
  · rintro ⟨hn, hop⟩
    exact ⟨_, hop, by rw [BitVec.toNat_ofNat, Nat.mod_eq_of_lt hn]⟩
  · rintro ⟨op, hop, rfl⟩
    exact ⟨op.isLt, by rwa [BitVec.ofNat_toNat, BitVec.setWidth_eq]⟩

/-- Of the 256 bytes those that are no opcode of a valid table are all but as many as the table has rows (R71, R72). -/
theorem unknown_count {c : Config} (hc : c.Valid) :
    ((List.range 256).filter fun n => (lookup c (BitVec.ofNat 8 n)).isNone).length = 256 - c.opcodes.length := by
  have hsplit := List.length_eq_countP_add_countP (fun n => (lookup c (BitVec.ofNat 8 n)).isSome) (l := List.range 256)
  simp only [List.countP_eq_length_filter, Bool.not_eq_true, Option.isSome_eq_false_iff, Bool.decide_eq_true] at hsplit
  rw [List.length_range, (opcodes_perm hc).length_eq, List.length_map] at hsplit
  omega

/-- Settles O56: the default table is valid, hence so is its part without ALU_EXT, and they have 22 and 12 rows. -/
theorem standardOpcodesAreDistinct : Obligations.StandardOpcodesAreDistinct :=
  have hall := Config.standard_valid
  have hbase := hall.withoutExt
  ⟨hall, hbase, (unknown_count hall).trans rfl, (unknown_count hbase).trans rfl⟩

/-- Settles O57: the decoder evaluated on the bytes written out. -/
theorem writtenBytesDecode : Obligations.WrittenBytesDecode :=
  ⟨rfl, rfl, rfl, rfl, rfl, rfl, rfl, rfl, rfl, rfl⟩

end Sys2Proof

namespace Sys2Proof.Machine

/-! ### Fetch and decode -/

/-- Settles O9: `pc` is a byte, and the fetch begins with the byte it addresses. -/
theorem opcodeFetchNeverFaults : Obligations.OpcodeFetchNeverFaults := fun s =>
  ⟨memRead_byte s s.pc, by rw [fetchWindow_eq, List.head?_cons]⟩

/-- A running machine whose fetched bytes decode executes the instruction, under any configuration (R60). -/
theorem cycle_decoded {c : Config} {s : State} {i : Instr} (hr : s.running = true)
    (hd : decode c (fetchWindow s) = .ok i) : cycle c s = exec i s := by
  rw [cycle_running c hr, hd]

/-- Settles O10: the default machine's step is a cycle. -/
theorem stepRunsTheDecodedInstruction : Obligations.StepRunsTheDecodedInstruction := fun _ _ => cycle_decoded

/-- Settles O42: halted, rejected and decoded bytes each answer a next state. -/
theorem everyCycleAnswersNext : Obligations.EveryCycleAnswersNext := by
  intro c s
  cases hr : s.running with
  | false => exact ⟨_, cycle_halted c hr⟩
  | true =>
    cases hd : decode c (fetchWindow s) with
    | error r => exact ⟨_, cycle_rejected hr hd⟩
    | ok i =>
      rw [cycle_decoded hr hd]
      rcases exec_cases i s with ⟨e, -, he⟩ | ⟨t, -, ht⟩
      · exact ⟨_, he⟩
      · exact ⟨_, ht⟩

/-- The fetch hands on the opcode and as many bytes after it, up to two, as memory has (R61, R62). -/
theorem fetchWindow_cons (s : State) :
    ∃ rest, fetchWindow s = s.mem.read s.pc.toNat :: rest ∧ rest.length = min 2 (255 - s.pc.toNat) := by
  refine ⟨_, fetchWindow_eq s, ?_⟩
  rw [List.length_append]
  split <;> split <;> simp only [List.length_cons, List.length_nil] <;> omega

/-- Settles O12: the table finds no row, so the decoder refuses the first byte. -/
theorem unknownOpcodeIsDecodeError : Obligations.UnknownOpcodeIsDecodeError := by
  intro c s hrun h
  obtain ⟨rest, hfetch, -⟩ := fetchWindow_cons s
  have hdec : decode c (fetchWindow s) = .error (.unknownOpcode (s.mem.read s.pc.toNat)) := by
    rw [hfetch, decode_unknown (lookup_none.mpr h)]
  exact cycle_rejected hrun hdec

/-- Settles O13: the fetch has the row's operand bytes exactly where the last of them stands at 255 or below. -/
theorem operandsAreFetchedByArity : Obligations.OperandsAreFetchedByArity := by
  intro m s hrun hop
  obtain ⟨rest, hfetch, hlen⟩ := fetchWindow_cons s
  have hlookup : lookup Config.standard (s.mem.read s.pc.toNat) = some m := by rw [hop, lookup_standardOpcode]
  have harity := m.arity_le_two
  refine ⟨fun h => ?_, fun h => ?_⟩
  · have hdec : decode Config.standard (fetchWindow s) = .error (.operandMissing m) := by
      rw [hfetch, decode_missing hlookup (by omega)]
    exact cycle_rejected hrun hdec
  · have hdec : decode Config.standard (fetchWindow s) = .ok (m.assemble (rest.getD 0 0) (rest.getD 1 0)) := by
      rw [hfetch, decode_assembled hlookup (by omega)]
    refine ⟨_, m.mnemonic_assemble _ _, cycle_decoded hrun hdec, fun k hk => ?_⟩
    rw [← operands_of_fetch hdec (List.getElem?_eq_getElem hk), Nat.add_assoc, Nat.add_comm 1 k]

/-- The common handler checks its second operand before the ALU runs (R64, R114). -/
theorem aluTwoReg_illegal_second (op : AluOp) (a : RegOperand) {b : RegOperand} (h : 8 ≤ b.toNat) (s : State) :
    complete s (aluTwoReg op a b s) = .next (s.fatal .invalidRegister) := by
  rcases checkReg_cases a with ⟨r, -, ha⟩ | ⟨ha, -⟩
  · unfold aluTwoReg
    rw [checkRegs_bind, ha, except_bind_ok]
    exact complete_checkReg_illegal h s _
  · exact aluTwoReg_illegal_first op ha b s

/-- Settles O16: all eleven instructions are the common handler. -/
theorem secondRegisterOperandIsChecked : Obligations.SecondRegisterOperandIsChecked := by
  intro a b s h
  have two (op : AluOp) : complete s (aluTwoReg op a b s) = .next (s.fatal .invalidRegister) :=
    aluTwoReg_illegal_second op a h s
  simp only [List.forall_mem_cons]
  exact ⟨two .mul, two .cmp, two .add, two .sub, two .div, two .mod, two .and, two .or, two .xor, two .shl, two .shr,
    nofun⟩

/-- A cycle reads the configuration in the table's lookup of the byte at `pc` alone (R60, R63). -/
theorem cycle_congr {c d : Config} {s : State}
    (h : lookup c (s.mem.read s.pc.toNat) = lookup d (s.mem.read s.pc.toNat)) : cycle c s = cycle d s := by
  simp only [cycle, fetchWindow_eq, decode_congr h]

/-- Settles O58: the smaller table has no row for the ten opcodes, and the same row for every other byte. -/
theorem withoutAluExtOnlyTenOpcodesChange : Obligations.WithoutAluExtOnlyTenOpcodesChange := by
  refine fun s => ⟨?_, fun h => ?_⟩
  · rintro hrun ⟨m, hm, hop⟩
    refine unknownOpcodeIsDecodeError Config.standard.withoutExt s hrun fun n hn => ?_
    rw [hop]
    exact opcodeMap_ne_ext Config.standard_valid rfl hm hn
  · exact cycle_congr (lookup_withoutExt Config.standard_valid fun m hm => (h m hm).symm)

end Sys2Proof.Machine

namespace Sys2Proof.Machine

/-! ### Load immediate and output -/

/-- Settles O17: the effect of LDI on a legal register with room to advance, by `exec_of_done`. -/
theorem ldiLoadsItsImmediate : Obligations.LdiLoadsItsImmediate := fun r b _ hpc =>
  exec_of_done (i := .ldi r.operand b) ⟨r, rfl, hpc, rfl⟩

/-- Settles O18: the effect of PRN on a legal register with room to advance, by `exec_of_done`. -/
theorem prnEmitsTheRegister : Obligations.PrnEmitsTheRegister := fun r _ hpc =>
  exec_of_done (i := .prn r.operand) ⟨r, rfl, hpc, rfl⟩

end Sys2Proof.Machine

namespace Sys2Proof.Machine

/-! ### The values the ALU gives -/

/-- Addition modulo 256 (R100). -/
theorem toNat_aluAdd (x y : Byte) : (aluAdd x y).toNat = (x.toNat + y.toNat) % 256 := BitVec.toNat_ofNat _ _

/-- Subtraction modulo 256, the remainder the non-negative one (R101). -/
theorem toNat_aluSub (x y : Byte) : ((aluSub x y).toNat : Int) = ((x.toNat : Int) - y.toNat) % 256 := by
  rw [aluSub, BitVec.toNat_ofInt]
  exact Int.toNat_of_nonneg (Int.emod_nonneg _ (by decide))

/-- Multiplication modulo 256 (R102). -/
theorem toNat_aluMul (x y : Byte) : (aluMul x y).toNat = (x.toNat * y.toNat) % 256 := BitVec.toNat_ofNat _ _

/-- A number no greater than a byte's value is a byte's value. -/
theorem toNat_ofNat_of_le {n : Nat} {x : Byte} (h : n ≤ x.toNat) : (BitVec.ofNat 8 n).toNat = n :=
  Nat.mod_eq_of_lt (Nat.lt_of_le_of_lt h x.isLt)

/-- With a divisor that is not 0, the ALU's DIV is the byte division (R103). -/
theorem aluApply_div (x : Byte) {y : Byte} (h : y ≠ 0) : aluApply .div x y = .ok (.result (x / y)) := by
  have hdiv : BitVec.ofNat 8 (x.toNat / y.toNat) = x / y :=
    BitVec.eq_of_toNat_eq (by rw [toNat_ofNat_of_le (Nat.div_le_self _ _), BitVec.toNat_udiv])
  rw [aluApply, aluDiv_nonzero x h, hdiv]; rfl

/-- With a divisor that is not 0, the ALU's MOD is the byte remainder (R104). -/
theorem aluApply_mod (x : Byte) {y : Byte} (h : y ≠ 0) : aluApply .mod x y = .ok (.result (x % y)) := by
  have hmod : BitVec.ofNat 8 (x.toNat % y.toNat) = x % y :=
    BitVec.eq_of_toNat_eq (by rw [toNat_ofNat_of_le (Nat.mod_le _ _), BitVec.toNat_umod])
  rw [aluApply, aluMod_nonzero x h, hmod]; rfl

/-- 255 - A is the bitwise complement (R108). -/
theorem aluNot_eq (x : Byte) : aluNot x = ~~~x :=
  BitVec.eq_of_toNat_eq (by rw [aluNot, BitVec.toNat_ofNat, BitVec.toNat_not]; omega)

/-- Multiplication by 2^B modulo 256 is the left shift by the whole of B (R109). -/
theorem aluShl_eq (x y : Byte) : aluShl x y = x <<< y.toNat :=
  BitVec.eq_of_toNat_eq (by rw [aluShl, BitVec.toNat_ofNat, BitVec.toNat_shiftLeft, Nat.shiftLeft_eq])

/-- Division by 2^B is the logical right shift by the whole of B (R110). -/
theorem aluShr_eq (x y : Byte) : aluShr x y = x >>> y.toNat := by
  refine BitVec.eq_of_toNat_eq ?_
  rw [aluShr, toNat_ofNat_of_le (Nat.div_le_self _ _), BitVec.toNat_ushiftRight, Nat.shiftRight_eq_div_pow]

/-! ### The comparison -/

@[simp] theorem compareFlag_eq_equal {x y : Byte} : compareFlag x y = .equal ↔ x = y := by
  unfold compareFlag
  split
  case isTrue heq => exact iff_of_true rfl heq
  case isFalse hne => exact iff_of_false (by split <;> nofun) hne

@[simp] theorem compareFlag_eq_greater {x y : Byte} : compareFlag x y = .greater ↔ y.toNat < x.toNat := by
  unfold compareFlag
  split
  case isTrue heq => exact iff_of_false nofun (heq ▸ Nat.lt_irrefl _)
  case isFalse =>
    split
    case isTrue hgt => exact iff_of_true rfl hgt
    case isFalse hngt => exact iff_of_false nofun hngt

@[simp] theorem compareFlag_eq_less {x y : Byte} : compareFlag x y = .less ↔ x.toNat < y.toNat := by
  unfold compareFlag
  split
  case isTrue heq => exact iff_of_false nofun (heq ▸ Nat.lt_irrefl _)
  case isFalse hne =>
    split
    case isTrue hgt => exact iff_of_false nofun (Nat.lt_asymm hgt)
    case isFalse hngt =>
      have hneNat : x.toNat ≠ y.toNat := fun h => hne (BitVec.eq_of_toNat_eq h)
      exact iff_of_true rfl (by omega)

/-- The test the jumps make of a comparison's outcome is equality of the bytes compared (R111, R133). -/
theorem isEqual_compareFlag (x y : Byte) : (compareFlag x y).isEqual = decide (x = y) := by
  simp only [Flag.isEqual, compareFlag_eq_equal]

/-! ### Completion and failure of the handlers, as the claims state them -/

/-- The common handler stores the ALU's result and advances by 3 (R114). -/
theorem complete_aluTwoReg (op : AluOp) (r q : RegIndex) {v : Byte} {s : State} (hpc : s.pc.toNat ≤ 252)
    (hv : aluApply op (s.reg r) (s.reg q) = .ok (.result v)) :
    complete s (aluTwoReg op r.operand q.operand s) = .next { s with x := s.x.set r v, pc := s.pc + 3 } :=
  complete_of_aluDone ⟨r, q, v, rfl, rfl, hv, hpc, rfl⟩

/-- An error of the ALU ends the cycle before the advance is tried (R114, R153). -/
theorem complete_aluTwoReg_error (op : AluOp) (r q : RegIndex) {e : Raise} {s : State}
    (he : aluApply op (s.reg r) (s.reg q) = .error e) :
    complete s (aluTwoReg op r.operand q.operand s) = .next (s.fatal e.kind) := by
  unfold aluTwoReg
  rw [checkRegs_bind, checkReg_operand, except_bind_ok, checkReg_operand, except_bind_ok]
  show complete s (aluApply op (s.reg r) (s.reg q) >>= _) = _
  rw [he]; rfl

/-- CMP stores the comparison's outcome and advances by 3 (R111). -/
theorem exec_cmp (r q : RegIndex) {s : State} (hpc : s.pc.toNat ≤ 252) :
    exec (.cmp r.operand q.operand) s =
      .next { s with fl := compareFlag (s.reg r) (s.reg q), pc := s.pc + 3 } :=
  exec_of_done (i := .cmp r.operand q.operand) ⟨r, q, rfl, rfl, hpc, rfl⟩

/-- A conditional jump with room to fall through completes either way (R133, R134). -/
theorem complete_jumpIf (taken : Bool) (j : RegIndex) {s : State} (hpc : s.pc.toNat ≤ 253) :
    complete s (jumpIf taken j.operand s) = .next { s with pc := if taken then s.reg j else s.pc + 2 } := by
  cases taken
  · exact complete_of_jumpDone ⟨j, rfl, .inr ⟨rfl, hpc, rfl⟩⟩
  · exact complete_of_jumpDone ⟨j, rfl, .inl ⟨rfl, rfl⟩⟩

/-! ### The ALU instructions -/

/-- Settles O20: the results are the byte quotient and remainder, for which the division theorem of Nat holds. -/
theorem divModAreQuotientAndRemainder : Obligations.DivModAreQuotientAndRemainder := by
  intro r q s hpc hq
  refine ⟨s.reg r / s.reg q, s.reg r % s.reg q, complete_aluTwoReg .div r q hpc (aluApply_div _ hq),
    complete_aluTwoReg .mod r q hpc (aluApply_mod _ hq), ?_, ?_⟩
  · rw [BitVec.toNat_udiv, BitVec.toNat_umod, Nat.div_add_mod]
  · rw [BitVec.toNat_umod]
    exact Nat.mod_lt _ (Nat.pos_of_ne_zero fun h => hq (BitVec.eq_of_toNat_eq h))

/-- Settles O24: the results are the two shifts of a byte by a natural number. -/
theorem shiftsUseTheWholeCount : Obligations.ShiftsUseTheWholeCount := by
  intro r q s hpc
  refine ⟨aluShl (s.reg r) (s.reg q), aluShr (s.reg r) (s.reg q), complete_aluTwoReg .shl r q hpc rfl,
    complete_aluTwoReg .shr r q hpc rfl, fun k hk => ?_, fun k _ => ?_, fun hcount => ?_⟩
  · rw [aluShl_eq, BitVec.getLsbD_shiftLeft]
    by_cases hle : (s.reg q).toNat ≤ k <;> simp [hk, hle]
  · rw [aluShr_eq, BitVec.getLsbD_ushiftRight, Nat.add_comm]
  · rw [aluShl_eq, aluShr_eq]
    exact ⟨BitVec.shiftLeft_eq_zero hcount, BitVec.ushiftRight_eq_zero hcount⟩

/-- Settles O25: FL is the outcome of the comparison. -/
theorem cmpSetsTheFlag : Obligations.CmpSetsTheFlag := fun r q s hpc =>
  ⟨compareFlag (s.reg r) (s.reg q), exec_cmp r q hpc, compareFlag_eq_equal, compareFlag_eq_greater,
    compareFlag_eq_less, compareFlag_ne_unset _ _⟩

/-- Settles O35: the jump after CMP tests the comparison's outcome, and falls through from `pc + 3`. -/
theorem compareThenJump : Obligations.CompareThenJump := by
  intro r q j s hpc
  have hfit : (s.pc + 3).toNat ≤ 253 := by rw [pc_add_three (by omega)]; omega
  have hfall : s.pc + 3 + 2 = s.pc + 5 := BitVec.add_assoc _ _ _
  refine ⟨_, exec_cmp r q (by omega), (complete_jumpIf _ j hfit).trans ?_, (complete_jumpIf _ j hfit).trans ?_⟩
  all_goals
    simp only [isEqual_compareFlag, hfall, decide_eq_true_eq, Bool.not_eq_true', decide_eq_false_iff_not, ite_not]
    rfl

/-- Settles O19: the common handler with the three operations modulo 256. -/
theorem addSubMulAreModulo256 : Obligations.AddSubMulAreModulo256 := fun r q _ hpc =>
  ⟨⟨_, complete_aluTwoReg .add r q hpc rfl, toNat_aluAdd _ _⟩,
    ⟨_, complete_aluTwoReg .sub r q hpc rfl, toNat_aluSub _ _⟩,
    ⟨_, complete_aluTwoReg .mul r q hpc rfl, toNat_aluMul _ _⟩⟩

/-- Settles O21: the ALU raises DivisionByZero before the advance. -/
theorem divModByZeroHaltUnchanged : Obligations.DivModByZeroHaltUnchanged := fun r q _ hq =>
  ⟨complete_aluTwoReg_error .div r q (e := .divisionByZero) (by rw [hq]; rfl),
    complete_aluTwoReg_error .mod r q (e := .divisionByZero) (by rw [hq]; rfl)⟩

/-- Settles O22: the common handler with the three bitwise operations. -/
theorem andOrXorAreBitwise : Obligations.AndOrXorAreBitwise := fun r q _ hpc =>
  ⟨⟨_, complete_aluTwoReg .and r q hpc rfl, fun _ _ => BitVec.getLsbD_and⟩,
    ⟨_, complete_aluTwoReg .or r q hpc rfl, fun _ _ => BitVec.getLsbD_or⟩,
    ⟨_, complete_aluTwoReg .xor r q hpc rfl, fun _ _ => BitVec.getLsbD_xor⟩⟩

/-- Settles O23: NOT stores the bitwise complement. -/
theorem notInvertsEveryBit : Obligations.NotInvertsEveryBit := by
  intro r s hpc
  refine ⟨aluNot (s.reg r), exec_of_done (i := .not r.operand) ⟨r, rfl, hpc, rfl⟩, ?_, fun k hk => ?_⟩
  · rw [aluNot_eq, BitVec.toNat_not]
  · rw [aluNot_eq, BitVec.getLsbD_not, decide_eq_true hk, Bool.true_and]

end Sys2Proof.Machine

namespace Sys2Proof.Machine

/-! ### PUSH and POP -/

section
variable {s : State}

/-- PUSH with room below SP completes: it pushes the register's byte and advances by 2 (R120). -/
theorem exec_push (r : RegIndex) (hpc : s.pc.toNat ≤ 253) (hsp : s.sp ≠ 0) :
    exec (.push r.operand) s = .next ((pushed (s.reg r) s).setPc (s.pc + 2)) :=
  exec_of_done (i := .push r.operand) ⟨r, rfl, hpc, hsp, rfl⟩

/-- POP with room above SP completes: it moves SP up, then sets the register it names, and advances by 2 (R121). -/
theorem exec_pop (q : RegIndex) (hpc : s.pc.toNat ≤ 253) (hsp : s.sp ≠ 255) :
    exec (.pop q.operand) s =
      .next (((s.setReg spReg (s.sp + 1)).setReg q (s.mem.read s.sp.toNat)).setPc (s.pc + 2)) :=
  exec_of_done (i := .pop q.operand) ⟨q, rfl, hpc, hsp, rfl⟩

/-- After a push, the byte at SP is the pushed one (R44). -/
theorem read_pushed_sp {v : Byte} (hs : Memory.wf s.mem) (hsp : s.sp ≠ 0) :
    (pushed v s).mem.read (pushed v s).sp.toNat = v := by
  rw [read_pushed hs, sp_pushed, sp_sub_toNat hsp, if_pos rfl]

/-- A push leaves room for a pop: SP does not wrap round to 255 (R44, R45). -/
theorem sp_pushed_ne_max (v : Byte) (hsp : s.sp ≠ 0) : (pushed v s).sp ≠ 255 := by
  rw [sp_pushed]
  bv_omega

/-- A register other than R7 is not the stack pointer (R14). -/
theorem sp_setReg_other {q : RegIndex} (v : Byte) (hq : q ≠ spReg) : (s.setReg q v).sp = s.sp :=
  State.reg_setReg_other s q spReg v hq.symm

end

/-- Settles O26: the state `exec_push` answers, its fields written out. -/
theorem pushStoresTheRegister : Obligations.PushStoresTheRegister := fun r _ => exec_push r

/-- Settles O27: the state `exec_pop` answers, its fields written out. -/
theorem popLoadsTheRegister : Obligations.PopLoadsTheRegister := fun r _ => exec_pop r

/-- Settles O29: PUSH leaves the byte at SP and room for a pop, and POP into another register than R7 keeps the SP it
moved up. -/
theorem pushThenPopRestores : Obligations.PushThenPopRestores := by
  intro r q s hq hpc hsp hs
  have hfit : (s.pc + 2).toNat ≤ 253 := by rw [pc_add_two (by omega)]; omega
  refine ⟨_, _, exec_push r (by omega) hsp, exec_pop q hfit (sp_pushed_ne_max _ hsp), ?_, ?_, ?_⟩
  · rw [State.reg_setPc, State.reg_setReg_same]
    exact read_pushed_sp hs hsp
  · rw [State.sp_setPc, sp_setReg_other _ hq, State.sp_setReg, State.sp_setPc, sp_pushed, BitVec.sub_add_cancel]
  · exact BitVec.add_assoc s.pc 2 2

end Sys2Proof.Machine

namespace Sys2Proof.Machine

/-! ### Control transfer -/

theorem Flag.not_isEqual_iff (f : Flag) : (!f.isEqual) = true ↔ f ≠ .equal := by
  rw [Bool.not_eq_true', ← Bool.not_eq_true, Flag.isEqual_iff]

section
variable {s : State}

/-- CALL with room for its return address and below SP completes: it pushes `pc + 2` and jumps to the register's old byte
(R130). -/
theorem exec_call (r : RegIndex) (hpc : s.pc.toNat ≤ 253) (hsp : s.sp ≠ 0) :
    exec (.call r.operand) s = .next ((pushed (s.pc + 2) s).setPc (s.reg r)) :=
  exec_of_done (i := .call r.operand) ⟨r, rfl, hpc, hsp, rfl⟩

/-- RET with room above SP completes: it moves SP up and jumps to the popped byte (R131). -/
theorem exec_ret (hsp : s.sp ≠ 255) :
    exec .ret s = .next ((s.setReg spReg (s.sp + 1)).setPc (s.mem.read s.sp.toNat)) :=
  exec_of_done (i := .ret) ⟨hsp, rfl⟩

/-- Moving SP up after a push gives every register its byte back, R7 included (R44, R45). -/
theorem reg_pushed_sp_restored (v : Byte) (q : RegIndex) :
    ((pushed v s).setReg spReg ((pushed v s).sp + 1)).reg q = s.reg q := by
  by_cases hq : q = spReg
  · rw [hq, State.reg_setReg_same, sp_pushed, BitVec.sub_add_cancel]; rfl
  · rw [State.reg_setReg_other _ _ _ _ hq, reg_pushed_other s v hq]

end

/-- Settles O33: both are the handler of a conditional jump, JNE with the negated test. -/
theorem jeqAndJneAreComplements : Obligations.JeqAndJneAreComplements := by
  intro r s hpc
  refine ⟨(complete_jumpIf s.fl.isEqual r hpc).trans ?_, (complete_jumpIf (!s.fl.isEqual) r hpc).trans ?_⟩
  · simp only [Flag.isEqual_iff]
  · simp only [Flag.not_isEqual_iff, ite_not]

/-- Settles O34: CALL leaves its return address at SP and room for a pop, and RET moves SP up to where it was. -/
theorem callThenRetReturns : Obligations.CallThenRetReturns := fun r _ hpc hsp hs =>
  ⟨_, _, exec_call r hpc hsp, rfl, exec_ret (sp_pushed_ne_max _ hsp), read_pushed_sp hs hsp,
    reg_pushed_sp_restored _ spReg, reg_pushed_sp_restored _⟩

/-- Settles O30: the state `exec_call` answers, its fields written out. -/
theorem callPushesTheReturnAddress : Obligations.CallPushesTheReturnAddress := fun r _ => exec_call r

/-- Settles O31: the state `exec_ret` answers, its fields written out. -/
theorem retPopsIntoPc : Obligations.RetPopsIntoPc := fun _ => exec_ret

end Sys2Proof.Machine

namespace Sys2Proof.Machine

/-! ### System -/

/-- HLT completes in every state, and its effect is `State.stop` (R140). -/
theorem exec_hlt (s : State) : exec .hlt s = .next s.stop :=
  exec_of_done (i := .hlt) rfl

/-- Settles O36: the state `exec_hlt` answers, its fields written out. -/
theorem hltStopsCleanly : Obligations.HltStopsCleanly := exec_hlt

end Sys2Proof.Machine

namespace Sys2Proof.Machine

/-! ### Exceptions -/

/-- Settles O45: a halted cycle and a completed instruction leave the latch, so the step entered Halted on a fatal error,
which writes RUNNING and the latch alone. -/
theorem fatalErrorsArePrecise : Obligations.FatalErrorsArePrecise := by
  intro s t h hlatch
  rcases cycle_inv h with ⟨-, rfl⟩ | ⟨hr, ⟨e, -, rfl⟩ | ⟨i, -, -, -, hd⟩⟩
  · exact absurd hlatch (by simp)
  · exact ⟨hr, e.kind_ne_none, rfl⟩
  · obtain ⟨herr, herrpc, -⟩ := hd.status
    exact absurd hlatch (by simp [herr, herrpc])

end Sys2Proof.Machine
